-- ==== Sys2Proof/Word.lean ====
section
/-!
DEFINITION. The values of the machine.

What a general register, a data cell or the integer field of a slot holds is a mathematical integer (00_scope.md R7, R9),
so a word of this machine is an `Int`: no rule reads one as bits, and its plainest arithmetic is that of `Int`. Only the
header of an instruction slot is a bit field (Sys2Proof/Syntax.lean). The other values are trits, which only the word
codec uses (Sys2Proof/Machine/Codec.lean).
-/

namespace Sys2Proof

/-- One trit, "one of exactly three values, −1, 0, +1" (00_scope.md R14 and glossary). -/
inductive Trit where
  | neg
  | zero
  | pos
deriving DecidableEq, Repr

end Sys2Proof
end

