-- ==== Sys2Proof/Config.lean ====
section
/-!
DEFINITION. The construction parameters of the hardware (00_scope.md, section 2): fixed when a machine is built, never
changed by it. Every statement about the machine holds for every value of them; see notes/assumptions/1.md.
-/

namespace Sys2Proof

/-- `PCAP`, `DCAP` and `WORD_TRITS` (00_scope.md R5, R6, R7). -/
structure Params where
  /-- `PCAP`, the number of program-memory slots (R5). -/
  pcap : Nat
  /-- `DCAP`, the number of data-memory cells (R6). -/
  dcap : Nat
  /-- `WORD_TRITS`: `none` for unbounded words, `some n` for a realisation with words of `n` trits (R7). -/
  wordTrits : Option Nat
deriving DecidableEq, Repr

/-- The parameters of the hardware of this spec: 27 slots, 27 cells, unbounded words (R5, R6, R7). -/
def Params.default : Params :=
  { pcap := 27, dcap := 27, wordTrits := none }

/-- `TRIT_CODE`, the binary code of one trit on a wire (00_scope.md R8): an OPEN parameter, so an argument of the two
functions that use it (Sys2Proof/Machine/Codec.lean) and of nothing else. -/
structure TritCode where
  /-- The code of −1. -/
  ofNeg : Nat
  /-- The code of 0. -/
  ofZero : Nat
  /-- The code of +1. -/
  ofPos : Nat
deriving DecidableEq, Repr

end Sys2Proof
end

