-- ==== Sys2Proof/Syntax.lean ====
section
/-!
DEFINITION. The instruction as the spec defines it: a tagged variant (30_encoding.md R43), one constructor for each of
the 33 forms of R60, which are the rows of spec/opcode_table.json; and the packed slot that carries it (R45).
-/

namespace Sys2Proof

/-- The three general registers (10_state.md R16). -/
inductive Reg where
  | a
  | b
  | c
deriving DecidableEq, Repr

/-- A packed slot `(h, val)`: a 12-bit header and one unbounded integer (30_encoding.md R45, R48). -/
structure Slot where
  /-- The header `h[11:0]`. -/
  h : BitVec 12
  /-- The integer field. -/
  val : Int
deriving DecidableEq, Repr

/-- The fields of a packed slot, taken apart (30_encoding.md R45). -/
structure SlotFields where
  /-- `V`, `h[11]`: the slot holds an instruction. -/
  valid : Bool
  /-- `rb`, `h[10:9]`: the second register operand. -/
  rb : BitVec 2
  /-- `k`, `h[8:7]`: the kind of the second operand (R46). -/
  kind : BitVec 2
  /-- `ra`, `h[6:5]`: the first register operand. -/
  ra : BitVec 2
  /-- `op`, `h[4:0]`: the opcode number (R59). -/
  op : BitVec 5
  /-- The integer field. -/
  val : Int
deriving DecidableEq, Repr

/-- The instructions: one constructor for each form of 30_encoding.md R60. Register operands come in the order `ra`,
`rb`; an immediate, an address and a target are integers used as they are (R48). -/
inductive Instr where
  /-- `NOP` (R100). -/
  | nop
  /-- `HLT` (R101). -/
  | hlt
  /-- `MOV rd, rs` (R102). -/
  | movReg (rd rs : Reg)
  /-- `MOV rd, n` (R102). -/
  | movImm (rd : Reg) (n : Int)
  /-- `ADD rd, rs` (R103). -/
  | addReg (rd rs : Reg)
  /-- `ADD rd, n` (R103). -/
  | addImm (rd : Reg) (n : Int)
  /-- `SUB rd, rs` (R104). -/
  | subReg (rd rs : Reg)
  /-- `SUB rd, n` (R104). -/
  | subImm (rd : Reg) (n : Int)
  /-- `MUL rd, rs` (R105). -/
  | mulReg (rd rs : Reg)
  /-- `MUL rd, n` (R105). -/
  | mulImm (rd : Reg) (n : Int)
  /-- `DIV rd, rs` (R106). -/
  | divReg (rd rs : Reg)
  /-- `DIV rd, n` (R106). -/
  | divImm (rd : Reg) (n : Int)
  /-- `AND rd, rs` (R107). -/
  | andReg (rd rs : Reg)
  /-- `AND rd, n` (R107). -/
  | andImm (rd : Reg) (n : Int)
  /-- `OR rd, rs` (R108). -/
  | orReg (rd rs : Reg)
  /-- `OR rd, n` (R108). -/
  | orImm (rd : Reg) (n : Int)
  /-- `NOT rd` (R109). -/
  | notReg (rd : Reg)
  /-- `NEG rd` (R110). -/
  | negReg (rd : Reg)
  /-- `SIGN rd` (R111). -/
  | signReg (rd : Reg)
  /-- `ABS rd` (R112). -/
  | absReg (rd : Reg)
  /-- `SHL rd` (R113). -/
  | shlReg (rd : Reg)
  /-- `SHR rd` (R114). -/
  | shrReg (rd : Reg)
  /-- `CMP rd, rs` (R115). -/
  | cmpReg (rd rs : Reg)
  /-- `CMP rd, n` (R115). -/
  | cmpImm (rd : Reg) (n : Int)
  /-- `JMP t` (R116). -/
  | jmp (t : Int)
  /-- `JZ rs, t` (R117). -/
  | jz (rs : Reg) (t : Int)
  /-- `JN rs, t` (R118). -/
  | jn (rs : Reg) (t : Int)
  /-- `JP rs, t` (R119). -/
  | jp (rs : Reg) (t : Int)
  /-- `LD rd, a` (R120). -/
  | ldAddr (rd : Reg) (addr : Int)
  /-- `LD rd, [ri]` (R120). -/
  | ldInd (rd ri : Reg)
  /-- `ST rs, a` (R121). -/
  | stAddr (rs : Reg) (addr : Int)
  /-- `ST rs, [ri]` (R121). -/
  | stInd (rs ri : Reg)
  /-- `LEA rd, a` (R122). -/
  | lea (rd : Reg) (addr : Int)
deriving DecidableEq, Repr

end Sys2Proof
end

