-- ==== Sys2Proof/WellFormed.lean ====
section
/-!
DEFINITION. What a legal slot, legal parameters and a legal code of a trit are.

A term of `Instr` is legal by its type: its register operands are registers and its integers are unrestricted
(30_encoding.md R44, R48). What can be ill formed is a packed slot, which a host may fill directly (60_exceptions.md
R134). This file states the legality of a slot from the formats R50 to R56 and the list of R62, over the slot's fields;
the decoder (Sys2Proof/Decode.lean) follows the match and mask table of R60 instead, and the two are compared by
statements.
-/

namespace Sys2Proof

/-- The instruction formats (30_encoding.md R50 to R56). -/
inductive Format where
  | f0
  | fr
  | ft
  | frs
  | frt
  | frm
  | fra
deriving DecidableEq, Repr

/-- The format of an opcode number (30_encoding.md R59); `none` for the reserved numbers 23 to 31. -/
def Format.ofOpcode (op : Nat) : Option Format :=
  if op ≤ 1 then some .f0
  else if op ≤ 8 then some .frs
  else if op ≤ 14 then some .fr
  else if op = 15 then some .frs
  else if op = 16 then some .ft
  else if op ≤ 19 then some .frt
  else if op ≤ 21 then some .frm
  else if op = 22 then some .fra
  else none

/-- The kinds of the second operand a format admits: 0 none, 1 register, 2 integer, 3 indirect (R46, R50 to R56). -/
def Format.admits (F : Format) (kind : BitVec 2) : Bool :=
  match F with
  | .f0 => kind == 0
  | .fr => kind == 0
  | .ft => kind == 2
  | .frs => kind == 1 || kind == 2
  | .frt => kind == 2
  | .frm => kind == 2 || kind == 3
  | .fra => kind == 2

/-- Whether a format uses the field `ra` (R50 to R56). -/
def Format.usesRa (F : Format) : Bool :=
  match F with
  | .f0 => false
  | .ft => false
  | .fr => true
  | .frs => true
  | .frt => true
  | .frm => true
  | .fra => true

/-- The reasons a slot is an illegal encoding (30_encoding.md R62). -/
inductive SlotDefect where
  /-- `V = 0` with any other bit or the integer nonzero. -/
  | emptyNotZero
  /-- An opcode number 23 to 31. -/
  | reservedOpcode
  /-- A kind of second operand the format does not admit. -/
  | kindNotAdmitted
  /-- The code `0b11` in a register field the form uses. -/
  | reservedRegister
  /-- A nonzero register field the form does not use. -/
  | unusedRegister
  /-- A nonzero integer where the form does not use it. -/
  | unusedVal
deriving DecidableEq, Repr

/-- The defect of one register field, given whether the form uses it (R47, R62). -/
def registerDefects (used : Bool) (field : BitVec 2) : List SlotDefect :=
  if used then (if field = 3 then [.reservedRegister] else [])
  else (if field = 0 then [] else [.unusedRegister])

/-- Every defect of a slot, from its fields (30_encoding.md R62). The field `rb` is used when the second operand is a
register or an indirect register, `val` when it is an integer (R46). -/
def SlotFields.defects (f : SlotFields) : List SlotDefect :=
  if f.valid then
    match Format.ofOpcode f.op.toNat with
    | none => [.reservedOpcode]
    | some F =>
      (if F.admits f.kind then [] else [.kindNotAdmitted])
        ++ registerDefects F.usesRa f.ra
        ++ registerDefects (f.kind == 1 || f.kind == 3) f.rb
        ++ (if f.kind = 2 ∨ f.val = 0 then [] else [.unusedVal])
  else
    if f.rb = 0 ∧ f.kind = 0 ∧ f.ra = 0 ∧ f.op = 0 ∧ f.val = 0 then [] else [.emptyNotZero]

/-- The fields are those of the empty slot or of a legal instruction (30_encoding.md R62). -/
def SlotFields.wellFormed (f : SlotFields) : Bool :=
  f.defects.isEmpty

/-- Legal construction parameters: `PCAP ≥ 1` and `DCAP ≥ 1` (00_scope.md R5, R6). -/
def Params.wellFormed (p : Params) : Bool :=
  decide (1 ≤ p.pcap) && decide (1 ≤ p.dcap)

/-- A legal code of a trit: three different codes, so that the code is a bijection onto them (00_scope.md R8). -/
def TritCode.wellFormed (c : TritCode) : Bool :=
  c.ofNeg != c.ofZero && c.ofNeg != c.ofPos && c.ofZero != c.ofPos

end Sys2Proof
end

