-- ==== Sys2Proof/Decode.lean ====
section
/-!
DEFINITION. The decoder of a packed slot (30_encoding.md R61), total on every `(h, val)`, and after it the encoder,
written from the field layout of R45 and the opcode numbers of R59.
-/

namespace Sys2Proof

/-! ### The fields of a slot -/

/-- The fields of a packed slot (30_encoding.md R45). -/
def Slot.fields (sl : Slot) : SlotFields :=
  { valid := sl.h.getLsbD 11
    rb := sl.h.extractLsb' 9 2
    kind := sl.h.extractLsb' 7 2
    ra := sl.h.extractLsb' 5 2
    op := sl.h.extractLsb' 0 5
    val := sl.val }

/-- The empty slot `(0x000, 0)` (30_encoding.md R45). -/
def Slot.empty : Slot :=
  { h := 0x000#12, val := 0 }

/-- The register a register field names; the code `0b11` names none (30_encoding.md R47). -/
def regOfCode (code : BitVec 2) : Option Reg :=
  if code = 0 then some .a
  else if code = 1 then some .b
  else if code = 2 then some .c
  else none

/-- The code of a register (30_encoding.md R47). -/
def regCode (r : Reg) : BitVec 2 :=
  match r with
  | .a => 0
  | .b => 1
  | .c => 2

/-! ### The decoder -/

/-- What a slot decodes to (30_encoding.md R61). -/
inductive Decoded where
  /-- `Empty`: the slot holds no instruction. -/
  | empty
  /-- A legal instruction. -/
  | instr (i : Instr)
  /-- `Illegal`: an illegal encoding (R62). -/
  | illegal
deriving DecidableEq, Repr

/-- One row of the table of legal encodings (30_encoding.md R60). A row that uses no `ra` or no `rb` builds its
instruction without looking at that argument. -/
structure Form where
  /-- The header bits the form fixes, at their values. -/
  pattern : BitVec 12
  /-- The header bits the form fixes. -/
  mask : BitVec 12
  /-- The form has a register in `ra`. -/
  usesRa : Bool
  /-- The form has a register in `rb`. -/
  usesRb : Bool
  /-- The form requires `val = 0`. -/
  valZero : Bool
  /-- The instruction of the form. -/
  build : Reg → Reg → Int → Instr

/-- A form with no register and no integer (format F0). -/
def formPlain (pattern : BitVec 12) (i : Instr) : Form :=
  { pattern := pattern, mask := 0xFFF#12, usesRa := false, usesRb := false, valZero := true,
    build := fun _ _ _ => i }

/-- A form with `ra` only (format FR). -/
def formRa (pattern : BitVec 12) (f : Reg → Instr) : Form :=
  { pattern := pattern, mask := 0xF9F#12, usesRa := true, usesRb := false, valZero := true,
    build := fun x _ _ => f x }

/-- A form with `ra` and `rb` (format FRS register form, format FRM indirect form). -/
def formRaRb (pattern : BitVec 12) (f : Reg → Reg → Instr) : Form :=
  { pattern := pattern, mask := 0x99F#12, usesRa := true, usesRb := true, valZero := true,
    build := fun x y _ => f x y }

/-- A form with `ra` and an integer (formats FRS immediate, FRT, FRM direct, FRA). -/
def formRaVal (pattern : BitVec 12) (f : Reg → Int → Instr) : Form :=
  { pattern := pattern, mask := 0xF9F#12, usesRa := true, usesRb := false, valZero := false,
    build := fun x _ v => f x v }

/-- A form with an integer only (format FT). -/
def formVal (pattern : BitVec 12) (f : Int → Instr) : Form :=
  { pattern := pattern, mask := 0xFFF#12, usesRa := false, usesRb := false, valZero := false,
    build := fun _ _ v => f v }

/-- The rows of R60 for opcodes 0 to 8. -/
def formsLow : List Form :=
  [ formPlain 0x800#12 .nop
  , formPlain 0x801#12 .hlt
  , formRaRb 0x882#12 .movReg
  , formRaVal 0x902#12 .movImm
  , formRaRb 0x883#12 .addReg
  , formRaVal 0x903#12 .addImm
  , formRaRb 0x884#12 .subReg
  , formRaVal 0x904#12 .subImm
  , formRaRb 0x885#12 .mulReg
  , formRaVal 0x905#12 .mulImm
  , formRaRb 0x886#12 .divReg
  , formRaVal 0x906#12 .divImm
  , formRaRb 0x887#12 .andReg
  , formRaVal 0x907#12 .andImm
  , formRaRb 0x888#12 .orReg
  , formRaVal 0x908#12 .orImm ]

/-- The rows of R60 for opcodes 9 to 22. -/
def formsHigh : List Form :=
  [ formRa 0x809#12 .notReg
  , formRa 0x80A#12 .negReg
  , formRa 0x80B#12 .signReg
  , formRa 0x80C#12 .absReg
  , formRa 0x80D#12 .shlReg
  , formRa 0x80E#12 .shrReg
  , formRaRb 0x88F#12 .cmpReg
  , formRaVal 0x90F#12 .cmpImm
  , formVal 0x910#12 .jmp
  , formRaVal 0x911#12 .jz
  , formRaVal 0x912#12 .jn
  , formRaVal 0x913#12 .jp
  , formRaVal 0x914#12 .ldAddr
  , formRaRb 0x994#12 .ldInd
  , formRaVal 0x915#12 .stAddr
  , formRaRb 0x995#12 .stInd
  , formRaVal 0x916#12 .lea ]

/-- The 33 legal encodings (30_encoding.md R60). -/
def forms : List Form :=
  formsLow ++ formsHigh

/-- The header agrees with the form on every bit the form fixes (30_encoding.md R60). -/
def Form.hits (F : Form) (h : BitVec 12) : Bool :=
  (h &&& F.mask) == F.pattern

/-- The register of a field a form uses; a field it does not use stands for no operand. -/
def fieldReg (used : Bool) (code : BitVec 2) : Option Reg :=
  if used then regOfCode code else some .a

/-- The instruction a form reads from a slot, if the slot matches it (the loop body of 30_encoding.md R61). -/
def Form.read (F : Form) (sl : Slot) : Option Instr :=
  if F.hits sl.h && (!F.valZero || sl.val == 0) then
    match fieldReg F.usesRa sl.fields.ra, fieldReg F.usesRb sl.fields.rb with
    | some x, some y => some (F.build x y sl.val)
    | _, _ => none
  else none

/-- The first form that reads an instruction from the slot. -/
def readFirst (fs : List Form) (sl : Slot) : Option Instr :=
  match fs with
  | [] => none
  | F :: rest =>
    match F.read sl with
    | some i => some i
    | none => readFirst rest sl

/-- The decoder of a packed slot (30_encoding.md R61): total, and `illegal` for every encoding of R62. -/
def decode (sl : Slot) : Decoded :=
  if sl.h.getLsbD 11 then
    match readFirst forms sl with
    | some i => .instr i
    | none => .illegal
  else if sl.h = 0 ∧ sl.val = 0 then .empty
  else .illegal

/-! ### The encoder -/

/-- The header of an instruction from its fields, `V` set (30_encoding.md R45). -/
def packHeader (op : BitVec 5) (ra kind rb : BitVec 2) : BitVec 12 :=
  1#1 ++ rb ++ kind ++ ra ++ op

/-- Format F0 (R50). -/
def encodeF0 (op : BitVec 5) : Slot :=
  { h := packHeader op 0 0 0, val := 0 }

/-- Format FR (R51). -/
def encodeFR (op : BitVec 5) (rd : Reg) : Slot :=
  { h := packHeader op (regCode rd) 0 0, val := 0 }

/-- Format FT (R52). -/
def encodeFT (op : BitVec 5) (t : Int) : Slot :=
  { h := packHeader op 0 2 0, val := t }

/-- A first register and a second register of kind register (FRS register form, R53). -/
def encodeRegReg (op : BitVec 5) (rd rs : Reg) : Slot :=
  { h := packHeader op (regCode rd) 1 (regCode rs), val := 0 }

/-- A first register and an integer (FRS immediate form R53, FRT R54, FRM direct form R55, FRA R56). -/
def encodeRegVal (op : BitVec 5) (r : Reg) (n : Int) : Slot :=
  { h := packHeader op (regCode r) 2 0, val := n }

/-- A first register and an indirect register (FRM indirect form, R55). -/
def encodeRegInd (op : BitVec 5) (r ri : Reg) : Slot :=
  { h := packHeader op (regCode r) 3 (regCode ri), val := 0 }

/-- The slot of an instruction (30_encoding.md R50 to R56, opcode numbers of R59). -/
def encode (i : Instr) : Slot :=
  match i with
  | .nop => encodeF0 0
  | .hlt => encodeF0 1
  | .movReg rd rs => encodeRegReg 2 rd rs
  | .movImm rd n => encodeRegVal 2 rd n
  | .addReg rd rs => encodeRegReg 3 rd rs
  | .addImm rd n => encodeRegVal 3 rd n
  | .subReg rd rs => encodeRegReg 4 rd rs
  | .subImm rd n => encodeRegVal 4 rd n
  | .mulReg rd rs => encodeRegReg 5 rd rs
  | .mulImm rd n => encodeRegVal 5 rd n
  | .divReg rd rs => encodeRegReg 6 rd rs
  | .divImm rd n => encodeRegVal 6 rd n
  | .andReg rd rs => encodeRegReg 7 rd rs
  | .andImm rd n => encodeRegVal 7 rd n
  | .orReg rd rs => encodeRegReg 8 rd rs
  | .orImm rd n => encodeRegVal 8 rd n
  | .notReg rd => encodeFR 9 rd
  | .negReg rd => encodeFR 10 rd
  | .signReg rd => encodeFR 11 rd
  | .absReg rd => encodeFR 12 rd
  | .shlReg rd => encodeFR 13 rd
  | .shrReg rd => encodeFR 14 rd
  | .cmpReg rd rs => encodeRegReg 15 rd rs
  | .cmpImm rd n => encodeRegVal 15 rd n
  | .jmp t => encodeFT 16 t
  | .jz rs t => encodeRegVal 17 rs t
  | .jn rs t => encodeRegVal 18 rs t
  | .jp rs t => encodeRegVal 19 rs t
  | .ldAddr rd addr => encodeRegVal 20 rd addr
  | .ldInd rd ri => encodeRegInd 20 rd ri
  | .stAddr rs addr => encodeRegVal 21 rs addr
  | .stInd rs ri => encodeRegInd 21 rs ri
  | .lea rd addr => encodeRegVal 22 rd addr

/-! ### The opcode table's words -/

/-- The slot of an instruction given as the `nbits` low bits of a number: the header is bits 11 to 0 and the bits above
are the integer field, read as a natural number. The spec gives the integer field no bits, so a row's word has none and
the field is 0 (DESIGN CHOICE, safe: no rule reads it; notes/assumptions/4.md). -/
def slotOfWord (nbits w : Nat) : Slot :=
  { h := BitVec.ofNat 12 (w % 2 ^ nbits), val := Int.ofNat (w % 2 ^ nbits / 4096) }

/-- The instruction the decoder reads from such a word. -/
def decodeTableWord (nbits w : Nat) : Option Instr :=
  match decode (slotOfWord nbits w) with
  | .instr i => some i
  | .empty => none
  | .illegal => none

end Sys2Proof
end

