-- ==== Sys2Proof/Machine/State.lean ====
section
/-!
DEFINITION. The state of the machine: the record of 10_state.md R15, with the construction parameters beside it.

The spec has no bytes (20_memory.md R32): a cell holds one integer and a slot one instruction, so a memory here is a
list of (index, contents) pairs rather than of byte cells. Its one canonical form is said in
Sys2Proof/Machine/Memory.lean.
-/

namespace Sys2Proof.Machine

open Sys2Proof

/-- A memory: the contents of every listed index, the indices strictly rising, no entry equal to what an unlisted index
reads as. -/
abbrev Memory (α : Type) := List (Nat × α)

/-- The general registers (10_state.md R16): exactly `A`, `B` and `C`. -/
structure Regs where
  /-- `x[0]`, register `A`. -/
  a : Int
  /-- `x[1]`, register `B`. -/
  b : Int
  /-- `x[2]`, register `C`. -/
  c : Int
deriving DecidableEq, Repr

/-- The fault kinds with what each records (60_exceptions.md R132). -/
inductive FaultKind where
  /-- A step fetched an illegal slot; records the slot index (R134). Safe: the machine stops. -/
  | illegalInstruction (pc : Int)
  /-- A step would have written, or a `load` installed, a value that the finite word cannot hold; records `pc`, for a
  step the slot index (R135, 00_scope.md R7; the load: notes/assumptions/5.md). Safe: the machine stops. -/
  | wordOverflow (pc : Int)
  /-- `load` of more than `PCAP` instructions; records their number (R136). Safe: nothing is installed. -/
  | programTooLarge (length : Nat)
  /-- `load` of more than `DCAP` data cells; records their number (R136). Safe: nothing is installed. -/
  | dataImageTooLarge (length : Nat)
deriving DecidableEq, Repr

/-- Why a step has no next state. -/
inductive Fault where
  /-- The machine is in the fault state `kind` and has no step (40_execution_cycle.md R77). Raised by the step alone,
  never by an instruction. Safe: nothing happens. -/
  | stuck (kind : FaultKind)
deriving DecidableEq, Repr

/-- Why the model refuses. No step of the finished model refuses; the codec refuses two inputs. -/
inductive Refusal where
  /-- An instruction whose meaning is not written. Raised by the dispatch alone; no arm of it does. Safe: nothing
  happens. -/
  | notModelled (mnemonic : String)
  /-- A codec call with a negative width (47_word_codec.md R124). Raised by `fromInteger`. Safe: no result. -/
  | codecNegativeWidth (width : Int)
  /-- A codec input holding an integer that is not a trit (47_word_codec.md R126). Raised by `toInteger`. Safe: no
  result. -/
  | codecNotATrit (entry : Int)
deriving DecidableEq, Repr

/-- The state of the machine (10_state.md R15). -/
structure State where
  /-- `PCAP`, `DCAP` and `WORD_TRITS` of this machine, fixed at construction (00_scope.md R5 to R7): configuration that
  no step and no host operation changes. -/
  params : Params
  /-- `x`: the general registers (R16). -/
  regs : Regs
  /-- `pc`: the index of the slot to fetch next, any integer (R19). -/
  pc : Int
  /-- `running`: the running flag (R21). -/
  running : Bool
  /-- `fault`: the spec's fault state (R23). -/
  fault : Option FaultKind
  /-- `pmem`: program memory, an unlisted slot being empty (R25). -/
  pmem : Memory Slot
  /-- `dmem`: data memory, an unlisted cell holding 0 (R26). -/
  dmem : Memory Int
deriving DecidableEq, Repr

/-- A machine freshly constructed with the parameters `p` (70_reset_and_hazards.md R147, values of 10_state.md R29). -/
def State.fresh (p : Params) : State :=
  { params := p
    regs := { a := 0, b := 0, c := 0 }
    pc := 0
    running := true
    fault := none
    pmem := []
    dmem := [] }

/-- The machine of this spec right after reset (10_state.md R29): 27 slots, 27 cells, unbounded words. -/
def State.reset : State :=
  State.fresh Params.default

end Sys2Proof.Machine
end

