-- ==== Sys2Proof/Machine/Number.lean ====
section
/-!
DEFINITION. The integer primitives of the spec's notation (00_scope.md R10, R11) and the range of a finite word
(60_exceptions.md R135).
-/

namespace Sys2Proof.Machine

open Sys2Proof

/-- `tdiv(a, b)`: integer division truncated toward zero (00_scope.md R10). -/
def tdiv (a b : Int) : Int :=
  Int.tdiv a b

/-- `emod(a, m)`: the least non-negative residue (00_scope.md R11). -/
def emod (a m : Int) : Int :=
  Int.emod a m

/-- The largest value of a word of `n` trits, `(3^n − 1) / 2` (47_word_codec.md R127). -/
def maxOfTrits (n : Nat) : Nat :=
  (3 ^ n - 1) / 2

/-- Whether a register or a data cell of a machine with these parameters can hold `v` (60_exceptions.md R135): always,
where `WORD_TRITS = none`. -/
def fits (p : Params) (v : Int) : Bool :=
  match p.wordTrits with
  | none => true
  | some n => decide (v.natAbs ≤ maxOfTrits n)

end Sys2Proof.Machine
end

