-- ==== Sys2Proof/Machine/Alu.lean ====
section
/-!
DEFINITION. The ternary ALU (41_ternary_alu.md): pure functions on all integers, with no state, no flags and no
exceptions (R85, R86). The three-valued results are integers, as the registers that receive them are.
-/

namespace Sys2Proof.Machine

open Sys2Proof

/-- The function codes of the ALU (41_ternary_alu.md R85). -/
inductive AluFn where
  | add
  | sub
  | mul
  | div
  | min
  | max
  | neg
  | sign
  | abs
  | shl3
  | shr3
  | cmp3
deriving DecidableEq, Repr

/-- `SIGN(a)` (R94). -/
def signOf (a : Int) : Int :=
  if a < 0 then -1 else if a = 0 then 0 else 1

/-- `DIV(a, b)`, with the defined result 0 for a zero divisor (R90). -/
def divOrZero (a b : Int) : Int :=
  if b ≠ 0 then tdiv a b else 0

/-- `MIN(a, b)` (R91). -/
def minOf (a b : Int) : Int :=
  if a ≤ b then a else b

/-- `MAX(a, b)` (R92). -/
def maxOf (a b : Int) : Int :=
  if a ≤ b then b else a

/-- `ABS(a)` (R95). -/
def absOf (a : Int) : Int :=
  if a < 0 then -a else a

/-- `SHR3(a)`, by truncating division and not through the codec (R97). -/
def shr3Of (a : Int) : Int :=
  tdiv a 3

/-- `alu(f, a, b)` (R85); the unary functions take no `b` and do not look at it. -/
def alu (f : AluFn) (a b : Int) : Int :=
  match f with
  | .add => a + b
  | .sub => a - b
  | .mul => a * b
  | .div => divOrZero a b
  | .min => minOf a b
  | .max => maxOf a b
  | .neg => -a
  | .sign => signOf a
  | .abs => absOf a
  | .shl3 => a * 3
  | .shr3 => shr3Of a
  | .cmp3 => signOf (a - b)

end Sys2Proof.Machine
end

