-- ==== Sys2Proof/Machine/Flags.lean ====
section
/-!
DEFINITION. The block has no condition codes and no status flags (10_state.md R22): no flag computation exists. What
stands in their place: the predicates the conditional jumps apply to a register's value, and the control state, which is
a function of `running` and `fault`.
-/

namespace Sys2Proof.Machine

open Sys2Proof

/-- The predicates of the conditional jumps (45_control_transfer.md R117 to R119). -/
inductive Cond where
  | zero
  | negative
  | positive
deriving DecidableEq, Repr

/-- Whether a register's value meets a predicate. -/
def condHolds (c : Cond) (v : Int) : Bool :=
  match c with
  | .zero => decide (v = 0)
  | .negative => decide (v < 0)
  | .positive => decide (0 < v)

/-- The control states (40_execution_cycle.md R72). -/
inductive ControlState where
  | run
  | halt
  | fault
deriving DecidableEq, Repr

/-- The control state of a machine (40_execution_cycle.md R72). -/
def State.control (s : State) : ControlState :=
  match s.fault with
  | some _ => .fault
  | none => if s.running then .run else .halt

end Sys2Proof.Machine
end

