-- ==== Sys2Proof/Machine/Memory.lean ====
section
/-!
DEFINITION. A memory as a list of (index, contents) pairs in one canonical form: the indices strictly rise, and no entry
holds `blank`, the contents of an index that is not listed. Data memory has `blank = 0` and program memory the empty
slot (10_state.md R29).
-/

namespace Sys2Proof.Machine

open Sys2Proof

/-- The contents at index `k`. -/
def memRead {α : Type} (blank : α) (m : Memory α) (k : Nat) : α :=
  match m with
  | [] => blank
  | e :: rest => if k = e.1 then e.2 else memRead blank rest k

/-- The memory with `v` at index `k`; writing `blank` removes the entry, so that the form stays canonical. -/
def memWrite {α : Type} [DecidableEq α] (blank : α) (m : Memory α) (k : Nat) (v : α) : Memory α :=
  match m with
  | [] => if v = blank then [] else [(k, v)]
  | e :: rest =>
    if k < e.1 then (if v = blank then e :: rest else (k, v) :: e :: rest)
    else if k = e.1 then (if v = blank then rest else (k, v) :: rest)
    else e :: memWrite blank rest k v

/-- The memory that holds the listed contents from index `start` on and `blank` everywhere else
(70_reset_and_hazards.md R148). -/
def memOfList {α : Type} [DecidableEq α] (blank : α) (start : Nat) (xs : List α) : Memory α :=
  match xs with
  | [] => []
  | x :: rest => if x = blank then memOfList blank (start + 1) rest else (start, x) :: memOfList blank (start + 1) rest

/-- Every listed index is `start` or above, the indices strictly rise, and no entry holds `blank`. -/
def memWfFrom {α : Type} [DecidableEq α] (blank : α) (start : Nat) (m : Memory α) : Bool :=
  match m with
  | [] => true
  | e :: rest => decide (start ≤ e.1) && !decide (e.2 = blank) && memWfFrom blank (e.1 + 1) rest

/-- The canonical form. -/
def Memory.wf {α : Type} [DecidableEq α] (blank : α) (m : Memory α) : Bool :=
  memWfFrom blank 0 m

/-- Every listed index is below `n`. -/
def memBelow {α : Type} (n : Nat) (m : Memory α) : Bool :=
  match m with
  | [] => true
  | e :: rest => decide (e.1 < n) && memBelow n rest

/-- The contents of the indices `start, …, start + n − 1`, in order. -/
def memCells {α : Type} (blank : α) (m : Memory α) (start n : Nat) : List α :=
  match n with
  | 0 => []
  | n + 1 => memRead blank m start :: memCells blank m (start + 1) n

end Sys2Proof.Machine
end

