-- ==== Sys2Proof/Machine/Ops.lean ====
section
/-!
DEFINITION. The named operations over registers, data memory, program memory, the program counter and the fault state.
Each instruction's meaning is one of `finishReg`, `finishCell`, `finishPc`, `finishPlain` and `finishHalt`, given values
it read from the state before the instruction (70_reset_and_hazards.md R151).
-/

namespace Sys2Proof.Machine

open Sys2Proof

/-! ### Registers -/

/-- `x[r]` (00_scope.md R12). -/
def Regs.get (x : Regs) (r : Reg) : Int :=
  match r with
  | .a => x.a
  | .b => x.b
  | .c => x.c

/-- `x[r] <- v` (00_scope.md R12); no register is hardwired or an alias (10_state.md R16). -/
def Regs.set (x : Regs) (r : Reg) (v : Int) : Regs :=
  match r with
  | .a => { x with a := v }
  | .b => { x with b := v }
  | .c => { x with c := v }

/-- The state with register `r` holding `v`. -/
def State.setReg (s : State) (r : Reg) (v : Int) : State :=
  { s with regs := s.regs.set r v }

/-! ### Data memory -/

/-- The index of the cell that data address `addr` reaches, `emod(addr, DCAP)` (20_memory.md R30). -/
def State.cellIndex (s : State) (addr : Int) : Nat :=
  (emod addr s.params.dcap).toNat

/-- `MemRead(addr, 1)` (00_scope.md R12, 20_memory.md R30). -/
def State.readCell (s : State) (addr : Int) : Int :=
  memRead 0 s.dmem (s.cellIndex addr)

/-- `MemWrite(addr, 1, v)` (00_scope.md R12, 20_memory.md R30). -/
def State.writeCell (s : State) (addr : Int) (v : Int) : State :=
  { s with dmem := memWrite 0 s.dmem (s.cellIndex addr) v }

/-! ### Program memory -/

/-- Slot `k` of program memory (10_state.md R25). -/
def State.slotAt (s : State) (k : Nat) : Slot :=
  memRead Slot.empty s.pmem k

/-- The state with slot `k` filled by the host; no instruction does this (20_memory.md R41). -/
def State.putSlot (s : State) (k : Nat) (sl : Slot) : State :=
  { s with pmem := memWrite Slot.empty s.pmem k sl }

/-- The program counter is inside program memory, `0 ≤ pc < PCAP` (40_execution_cycle.md R74). -/
def State.pcInBounds (s : State) : Bool :=
  decide (0 ≤ s.pc) && decide (s.pc < s.params.pcap)

/-! ### Program counter, running flag, fault state -/

/-- `pc <- pc + 1` (40_execution_cycle.md R76). -/
def State.advance (s : State) : State :=
  { s with pc := s.pc + 1 }

/-- `pc <- t` (00_scope.md R12). -/
def State.setPc (s : State) (t : Int) : State :=
  { s with pc := t }

/-- `running <- false`. -/
def State.stop (s : State) : State :=
  { s with running := false }

/-- `raise Fault(k)`: the one way a fault is entered (60_exceptions.md R133). It writes `fault` and `running` and nothing
else. There is no return from it: only reset clears a fault (R139, 70_reset_and_hazards.md R147). -/
def State.raiseFault (s : State) (k : FaultKind) : State :=
  { s with fault := some k, running := false }

/-! ### How an instruction ends -/

/-- An instruction that only advances `pc` (R76). -/
def finishPlain (s : State) : Host.Outcome State Fault Refusal :=
  .next s.advance

/-- An instruction that advances `pc` and clears `running` (R101). -/
def finishHalt (s : State) : Host.Outcome State Fault Refusal :=
  .next s.advance.stop

/-- An instruction that overrides the advanced `pc` (R76). -/
def finishPc (s : State) (t : Int) : Host.Outcome State Fault Refusal :=
  .next (s.advance.setPc t)

/-- An instruction that writes `v` to register `rd`. In a finite realisation a value the word cannot hold raises
`WordOverflow` with the instruction's own index instead, and then nothing else is written, the advance of `pc` included
(40_execution_cycle.md R73, 60_exceptions.md R135). -/
def finishReg (s : State) (rd : Reg) (v : Int) : Host.Outcome State Fault Refusal :=
  if fits s.params v then .next (s.advance.setReg rd v)
  else .next (s.raiseFault (.wordOverflow s.pc))

/-- An instruction that writes `v` to the data cell at `addr`; overflow as in `finishReg`. -/
def finishCell (s : State) (addr : Int) (v : Int) : Host.Outcome State Fault Refusal :=
  if fits s.params v then .next (s.advance.writeCell addr v)
  else .next (s.raiseFault (.wordOverflow s.pc))

end Sys2Proof.Machine
end

