-- ==== Sys2Proof/Machine/Operands.lean ====
section
/-!
DEFINITION. The operand forms (30_encoding.md R44, R57, R58), each read from the state before the instruction
(70_reset_and_hazards.md R151), and the instruction shapes over them. Also the table of 10_state.md R18: which registers
an instruction reads and which one it writes.
-/

namespace Sys2Proof.Machine

open Sys2Proof

/-! ### Operands -/

/-- The source of a format-FRS instruction (30_encoding.md R53). -/
inductive Src where
  /-- Register form. -/
  | reg (r : Reg)
  /-- Immediate form. -/
  | imm (n : Int)
deriving DecidableEq, Repr

/-- `srcval` (30_encoding.md R57). -/
def State.srcVal (s : State) (src : Src) : Int :=
  match src with
  | .reg r => s.regs.get r
  | .imm n => n

/-- The address operand of a format-FRM instruction (30_encoding.md R55). -/
inductive Addr where
  /-- Direct form. -/
  | direct (addr : Int)
  /-- Indirect form. -/
  | indirect (r : Reg)
deriving DecidableEq, Repr

/-- `ea` (30_encoding.md R58): not reduced here, but at the access. -/
def State.effAddr (s : State) (addr : Addr) : Int :=
  match addr with
  | .direct a => a
  | .indirect r => s.regs.get r

/-! ### Instruction shapes -/

/-- `x[rd] <- f(x[rd], srcval)`: the two-operand ALU instructions (43_arithmetic.md, 44_logic_and_ternary.md). -/
def aluTwo (f : AluFn) (rd : Reg) (src : Src) (s : State) : Host.Outcome State Fault Refusal :=
  finishReg s rd (alu f (s.regs.get rd) (s.srcVal src))

/-- `x[rd] <- f(x[rd])`: the one-operand ALU instructions (44_logic_and_ternary.md). A unary function ignores its second
argument. -/
def aluOne (f : AluFn) (rd : Reg) (s : State) : Host.Outcome State Fault Refusal :=
  finishReg s rd (alu f (s.regs.get rd) 0)

/-- `x[rd] <- srcval` (R102). -/
def moveTo (rd : Reg) (src : Src) (s : State) : Host.Outcome State Fault Refusal :=
  finishReg s rd (s.srcVal src)

/-- `if x[rs] meets c: pc <- t`, else `pc` keeps the advanced value (45_control_transfer.md R117 to R119). -/
def jumpIf (c : Cond) (rs : Reg) (t : Int) (s : State) : Host.Outcome State Fault Refusal :=
  if condHolds c (s.regs.get rs) then finishPc s t else finishPlain s

/-- `x[rd] <- MemRead(ea, 1)` (R120). -/
def loadFrom (rd : Reg) (addr : Addr) (s : State) : Host.Outcome State Fault Refusal :=
  finishReg s rd (s.readCell (s.effAddr addr))

/-- `MemWrite(ea, 1, x[rs])` (R121). -/
def storeTo (rs : Reg) (addr : Addr) (s : State) : Host.Outcome State Fault Refusal :=
  finishCell s (s.effAddr addr) (s.regs.get rs)

/-! ### Which registers an instruction reads and writes (10_state.md R18) -/

/-- The registers an instruction reads (10_state.md R18). -/
def regsRead (i : Instr) : List Reg :=
  match i with
  | .nop => []
  | .hlt => []
  | .movReg _ rs => [rs]
  | .movImm _ _ => []
  | .addReg rd rs => [rd, rs]
  | .addImm rd _ => [rd]
  | .subReg rd rs => [rd, rs]
  | .subImm rd _ => [rd]
  | .mulReg rd rs => [rd, rs]
  | .mulImm rd _ => [rd]
  | .divReg rd rs => [rd, rs]
  | .divImm rd _ => [rd]
  | .andReg rd rs => [rd, rs]
  | .andImm rd _ => [rd]
  | .orReg rd rs => [rd, rs]
  | .orImm rd _ => [rd]
  | .notReg rd => [rd]
  | .negReg rd => [rd]
  | .signReg rd => [rd]
  | .absReg rd => [rd]
  | .shlReg rd => [rd]
  | .shrReg rd => [rd]
  | .cmpReg rd rs => [rd, rs]
  | .cmpImm rd _ => [rd]
  | .jmp _ => []
  | .jz rs _ => [rs]
  | .jn rs _ => [rs]
  | .jp rs _ => [rs]
  | .ldAddr _ _ => []
  | .ldInd _ ri => [ri]
  | .stAddr rs _ => [rs]
  | .stInd rs ri => [rs, ri]
  | .lea _ _ => []

/-- The register an instruction writes, if any (10_state.md R18). -/
def regWritten (i : Instr) : Option Reg :=
  match i with
  | .nop => none
  | .hlt => none
  | .movReg rd _ => some rd
  | .movImm rd _ => some rd
  | .addReg rd _ => some rd
  | .addImm rd _ => some rd
  | .subReg rd _ => some rd
  | .subImm rd _ => some rd
  | .mulReg rd _ => some rd
  | .mulImm rd _ => some rd
  | .divReg rd _ => some rd
  | .divImm rd _ => some rd
  | .andReg rd _ => some rd
  | .andImm rd _ => some rd
  | .orReg rd _ => some rd
  | .orImm rd _ => some rd
  | .notReg rd => some rd
  | .negReg rd => some rd
  | .signReg rd => some rd
  | .absReg rd => some rd
  | .shlReg rd => some rd
  | .shrReg rd => some rd
  | .cmpReg rd _ => some rd
  | .cmpImm rd _ => some rd
  | .jmp _ => none
  | .jz _ _ => none
  | .jn _ _ => none
  | .jp _ _ => none
  | .ldAddr rd _ => some rd
  | .ldInd rd _ => some rd
  | .stAddr _ _ => none
  | .stInd _ _ => none
  | .lea rd _ => some rd

/-- The address operand of the instructions that store (10_state.md R26: `ST` alone writes a data cell). -/
def storeOperand (i : Instr) : Option Addr :=
  match i with
  | .stAddr _ addr => some (.direct addr)
  | .stInd _ ri => some (.indirect ri)
  | .nop => none
  | .hlt => none
  | .movReg _ _ => none
  | .movImm _ _ => none
  | .addReg _ _ => none
  | .addImm _ _ => none
  | .subReg _ _ => none
  | .subImm _ _ => none
  | .mulReg _ _ => none
  | .mulImm _ _ => none
  | .divReg _ _ => none
  | .divImm _ _ => none
  | .andReg _ _ => none
  | .andImm _ _ => none
  | .orReg _ _ => none
  | .orImm _ _ => none
  | .notReg _ => none
  | .negReg _ => none
  | .signReg _ => none
  | .absReg _ => none
  | .shlReg _ => none
  | .shrReg _ => none
  | .cmpReg _ _ => none
  | .cmpImm _ _ => none
  | .jmp _ => none
  | .jz _ _ => none
  | .jn _ _ => none
  | .jp _ _ => none
  | .ldAddr _ _ => none
  | .ldInd _ _ => none
  | .lea _ _ => none

end Sys2Proof.Machine
end

