-- ==== Sys2Proof/Machine/Access.lean ====
section
/-!
DEFINITION. Loads, stores and effective address (46_memory_access.md). As in Sys2Proof/Machine/Move.lean, each meaning takes
the state before the instruction.
-/

namespace Sys2Proof.Machine

open Sys2Proof

/-- `LD rd, a` — load, direct (R120). -/
def execLdAddr (rd : Reg) (addr : Int) (s : State) : Host.Outcome State Fault Refusal :=
  loadFrom rd (.direct addr) s

/-- `LD rd, [ri]` — load, indirect (R120). -/
def execLdInd (rd ri : Reg) (s : State) : Host.Outcome State Fault Refusal :=
  loadFrom rd (.indirect ri) s

/-- `ST rs, a` — store, direct (R121). -/
def execStAddr (rs : Reg) (addr : Int) (s : State) : Host.Outcome State Fault Refusal :=
  storeTo rs (.direct addr) s

/-- `ST rs, [ri]` — store, indirect (R121). -/
def execStInd (rs ri : Reg) (s : State) : Host.Outcome State Fault Refusal :=
  storeTo rs (.indirect ri) s

/-- `LEA rd, a` — load effective address: the address unreduced, no memory access (R122). -/
def execLea (rd : Reg) (addr : Int) (s : State) : Host.Outcome State Fault Refusal :=
  finishReg s rd addr

end Sys2Proof.Machine
end

