-- ==== Sys2Proof/Machine/Arithmetic.lean ====
section
/-!
DEFINITION. Arithmetic (43_arithmetic.md). As in Sys2Proof/Machine/Move.lean, each meaning takes the state before the
instruction.
-/

namespace Sys2Proof.Machine

open Sys2Proof

/-- `ADD rd, rs` — add (R103, R87). -/
def execAddReg (rd rs : Reg) (s : State) : Host.Outcome State Fault Refusal :=
  aluTwo .add rd (.reg rs) s

/-- `ADD rd, n` — add (R103, R87). -/
def execAddImm (rd : Reg) (n : Int) (s : State) : Host.Outcome State Fault Refusal :=
  aluTwo .add rd (.imm n) s

/-- `SUB rd, rs` — subtract, the destination minus the source (R104, R88). -/
def execSubReg (rd rs : Reg) (s : State) : Host.Outcome State Fault Refusal :=
  aluTwo .sub rd (.reg rs) s

/-- `SUB rd, n` — subtract, the destination minus the source (R104, R88). -/
def execSubImm (rd : Reg) (n : Int) (s : State) : Host.Outcome State Fault Refusal :=
  aluTwo .sub rd (.imm n) s

/-- `MUL rd, rs` — multiply, the exact product (R105, R89). -/
def execMulReg (rd rs : Reg) (s : State) : Host.Outcome State Fault Refusal :=
  aluTwo .mul rd (.reg rs) s

/-- `MUL rd, n` — multiply, the exact product (R105, R89). -/
def execMulImm (rd : Reg) (n : Int) (s : State) : Host.Outcome State Fault Refusal :=
  aluTwo .mul rd (.imm n) s

/-- `DIV rd, rs` — divide truncating toward zero, 0 for a zero divisor (R106, R90). -/
def execDivReg (rd rs : Reg) (s : State) : Host.Outcome State Fault Refusal :=
  aluTwo .div rd (.reg rs) s

/-- `DIV rd, n` — divide truncating toward zero, 0 for a zero divisor (R106, R90). -/
def execDivImm (rd : Reg) (n : Int) (s : State) : Host.Outcome State Fault Refusal :=
  aluTwo .div rd (.imm n) s

end Sys2Proof.Machine
end

