-- ==== Sys2Proof/Machine/Control.lean ====
section
/-!
DEFINITION. Control transfer (45_control_transfer.md). Targets are absolute slot indices and any integer is accepted. As in
Sys2Proof/Machine/Move.lean, each meaning takes the state before the instruction.
-/

namespace Sys2Proof.Machine

open Sys2Proof

/-- `JMP t` — unconditional jump (R116). -/
def execJmp (t : Int) (s : State) : Host.Outcome State Fault Refusal :=
  finishPc s t

/-- `JZ rs, t` — jump if zero (R117). -/
def execJz (rs : Reg) (t : Int) (s : State) : Host.Outcome State Fault Refusal :=
  jumpIf .zero rs t s

/-- `JN rs, t` — jump if negative (R118). -/
def execJn (rs : Reg) (t : Int) (s : State) : Host.Outcome State Fault Refusal :=
  jumpIf .negative rs t s

/-- `JP rs, t` — jump if positive (R119). -/
def execJp (rs : Reg) (t : Int) (s : State) : Host.Outcome State Fault Refusal :=
  jumpIf .positive rs t s

end Sys2Proof.Machine
end

