-- ==== Sys2Proof/Machine/Logic.lean ====
section
/-!
DEFINITION. Ternary logic, unary ternary operations and three-way compare (44_logic_and_ternary.md). As in
Sys2Proof/Machine/Move.lean, each meaning takes the state before the instruction.
-/

namespace Sys2Proof.Machine

open Sys2Proof

/-- `AND rd, rs` — ternary AND, the minimum (R107, R91). -/
def execAndReg (rd rs : Reg) (s : State) : Host.Outcome State Fault Refusal :=
  aluTwo .min rd (.reg rs) s

/-- `AND rd, n` — ternary AND, the minimum (R107, R91). -/
def execAndImm (rd : Reg) (n : Int) (s : State) : Host.Outcome State Fault Refusal :=
  aluTwo .min rd (.imm n) s

/-- `OR rd, rs` — ternary OR, the maximum (R108, R92). -/
def execOrReg (rd rs : Reg) (s : State) : Host.Outcome State Fault Refusal :=
  aluTwo .max rd (.reg rs) s

/-- `OR rd, n` — ternary OR, the maximum (R108, R92). -/
def execOrImm (rd : Reg) (n : Int) (s : State) : Host.Outcome State Fault Refusal :=
  aluTwo .max rd (.imm n) s

/-- `NOT rd` — ternary NOT (R109, R93). -/
def execNot (rd : Reg) (s : State) : Host.Outcome State Fault Refusal :=
  aluOne .neg rd s

/-- `NEG rd` — negate (R110, R93). -/
def execNeg (rd : Reg) (s : State) : Host.Outcome State Fault Refusal :=
  aluOne .neg rd s

/-- `SIGN rd` — sign (R111, R94). -/
def execSign (rd : Reg) (s : State) : Host.Outcome State Fault Refusal :=
  aluOne .sign rd s

/-- `ABS rd` — absolute value (R112, R95). -/
def execAbs (rd : Reg) (s : State) : Host.Outcome State Fault Refusal :=
  aluOne .abs rd s

/-- `SHL rd` — shift left by one trit, times 3 (R113, R96). -/
def execShl (rd : Reg) (s : State) : Host.Outcome State Fault Refusal :=
  aluOne .shl3 rd s

/-- `SHR rd` — shift right by one trit, truncating toward zero (R114, R97). -/
def execShr (rd : Reg) (s : State) : Host.Outcome State Fault Refusal :=
  aluOne .shr3 rd s

/-- `CMP rd, rs` — three-way compare into the first operand (R115, R98). -/
def execCmpReg (rd rs : Reg) (s : State) : Host.Outcome State Fault Refusal :=
  aluTwo .cmp3 rd (.reg rs) s

/-- `CMP rd, n` — three-way compare into the first operand (R115, R98). -/
def execCmpImm (rd : Reg) (n : Int) (s : State) : Host.Outcome State Fault Refusal :=
  aluTwo .cmp3 rd (.imm n) s

end Sys2Proof.Machine
end

