-- ==== Sys2Proof/Machine/Move.lean ====
section
/-!
DEFINITION. No-op, halt and move (42_nop_halt_move.md). Each meaning takes the state before the instruction, with `pc` at the
instruction's own index, and includes the step's advance of `pc` (40_execution_cycle.md R76).
-/

namespace Sys2Proof.Machine

open Sys2Proof

/-- `NOP` — no operation (R100). -/
def execNop (s : State) : Host.Outcome State Fault Refusal :=
  finishPlain s

/-- `HLT` — halt (R101). -/
def execHlt (s : State) : Host.Outcome State Fault Refusal :=
  finishHalt s

/-- `MOV rd, rs` — move a register (R102). -/
def execMovReg (rd rs : Reg) (s : State) : Host.Outcome State Fault Refusal :=
  moveTo rd (.reg rs) s

/-- `MOV rd, n` — move an immediate (R102). -/
def execMovImm (rd : Reg) (n : Int) (s : State) : Host.Outcome State Fault Refusal :=
  moveTo rd (.imm n) s

end Sys2Proof.Machine
end

