-- ==== Sys2Proof/Machine/Dispatch.lean ====
section
/-!
DEFINITION. The opcode dispatch (40_execution_cycle.md R80): one arm per instruction form, each one direct call of its
meaning. `s` is the state before the instruction, `pc` at the instruction's own index.
-/

namespace Sys2Proof.Machine

open Sys2Proof

def exec (i : Instr) (s : State) : Host.Outcome State Fault Refusal :=
  match i with
  | .nop => Sys2Proof.Machine.execNop s
  | .hlt => Sys2Proof.Machine.execHlt s
  | .movReg rd rs => Sys2Proof.Machine.execMovReg rd rs s
  | .movImm rd n => Sys2Proof.Machine.execMovImm rd n s
  | .addReg rd rs => Sys2Proof.Machine.execAddReg rd rs s
  | .addImm rd n => Sys2Proof.Machine.execAddImm rd n s
  | .subReg rd rs => Sys2Proof.Machine.execSubReg rd rs s
  | .subImm rd n => Sys2Proof.Machine.execSubImm rd n s
  | .mulReg rd rs => Sys2Proof.Machine.execMulReg rd rs s
  | .mulImm rd n => Sys2Proof.Machine.execMulImm rd n s
  | .divReg rd rs => Sys2Proof.Machine.execDivReg rd rs s
  | .divImm rd n => Sys2Proof.Machine.execDivImm rd n s
  | .andReg rd rs => Sys2Proof.Machine.execAndReg rd rs s
  | .andImm rd n => Sys2Proof.Machine.execAndImm rd n s
  | .orReg rd rs => Sys2Proof.Machine.execOrReg rd rs s
  | .orImm rd n => Sys2Proof.Machine.execOrImm rd n s
  | .notReg rd => Sys2Proof.Machine.execNot rd s
  | .negReg rd => Sys2Proof.Machine.execNeg rd s
  | .signReg rd => Sys2Proof.Machine.execSign rd s
  | .absReg rd => Sys2Proof.Machine.execAbs rd s
  | .shlReg rd => Sys2Proof.Machine.execShl rd s
  | .shrReg rd => Sys2Proof.Machine.execShr rd s
  | .cmpReg rd rs => Sys2Proof.Machine.execCmpReg rd rs s
  | .cmpImm rd n => Sys2Proof.Machine.execCmpImm rd n s
  | .jmp t => Sys2Proof.Machine.execJmp t s
  | .jz rs t => Sys2Proof.Machine.execJz rs t s
  | .jn rs t => Sys2Proof.Machine.execJn rs t s
  | .jp rs t => Sys2Proof.Machine.execJp rs t s
  | .ldAddr rd addr => Sys2Proof.Machine.execLdAddr rd addr s
  | .ldInd rd ri => Sys2Proof.Machine.execLdInd rd ri s
  | .stAddr rs addr => Sys2Proof.Machine.execStAddr rs addr s
  | .stInd rs ri => Sys2Proof.Machine.execStInd rs ri s
  | .lea rd addr => Sys2Proof.Machine.execLea rd addr s

end Sys2Proof.Machine
end

