-- ==== Sys2Proof/Machine/Fetch.lean ====
section
/-!
DEFINITION. The fetch and decode half of a step (40_execution_cycle.md R73).
-/

namespace Sys2Proof.Machine

open Sys2Proof

/-- What the step finds at `pc` (40_execution_cycle.md R73), in the order of its tests. -/
inductive Fetched where
  /-- `pc` is outside program memory (R74). -/
  | outOfBounds
  /-- The slot is empty (R75). -/
  | empty
  /-- The slot is illegal (60_exceptions.md R134). -/
  | illegal
  /-- The slot holds an instruction (R76). -/
  | instr (i : Instr)
deriving DecidableEq, Repr

/-- The fetch and decode of the slot at `pc`. -/
def State.fetch (s : State) : Fetched :=
  if s.pcInBounds then
    match decode (s.slotAt s.pc.toNat) with
    | .empty => .empty
    | .illegal => .illegal
    | .instr i => .instr i
  else .outOfBounds

/-- A clean halt: `running <- false` and nothing else (R74, R75). -/
def cleanHalt (s : State) : Host.Outcome State Fault Refusal :=
  .next s.stop

/-- The step's raise of `IllegalInstruction` with the slot index (60_exceptions.md R134). -/
def takeIllegal (s : State) : Host.Outcome State Fault Refusal :=
  .next (s.raiseFault (.illegalInstruction s.pc))

/-- The machine in its fault state: it has no step (40_execution_cycle.md R77). -/
def noStep (k : FaultKind) : Host.Outcome State Fault Refusal :=
  .fault (.stuck k)

/-- The state with the slot `sl` stored where the next step fetches it. A machine in the fault state, or with `pc`
outside program memory, fetches nothing: there the fault is cleared and `pc` is 0, as after a fresh construction. -/
def State.placeAtPc (s : State) (sl : Slot) : State :=
  let t : State := { s with fault := none, pc := if s.pcInBounds then s.pc else 0 }
  t.putSlot t.pc.toNat sl

end Sys2Proof.Machine
end

