-- ==== Sys2Proof/Machine/Step.lean ====
section
/-!
DEFINITION. One step of the machine (40_execution_cycle.md R73). It does not read `running` (R79).
-/

namespace Sys2Proof.Machine

open Sys2Proof

/-- One step (40_execution_cycle.md R73): the fault state, the bounds of `pc`, the empty slot and the illegal slot are
tested in this order, and then the instruction runs. -/
def step (s : State) : Host.Outcome State Fault Refusal :=
  match s.fault with
  | some k => noStep k
  | none =>
    match s.fetch with
    | .outOfBounds => cleanHalt s
    | .empty => cleanHalt s
    | .illegal => takeIllegal s
    | .instr i => exec i s

/-- The state whose very next step fetches the slot given by the low `nbits` bits of `w` (see `slotOfWord`): it stands
for a host's load of that one slot (notes/assumptions/6.md). -/
def State.withFetchWord (s : State) (nbits w : Nat) : State :=
  s.placeAtPc (slotOfWord nbits w)

end Sys2Proof.Machine
end

