-- ==== Sys2Proof/Machine/Codec.lean ====
section
/-!
DEFINITION. The balanced-ternary word encoder and decoder (47_word_codec.md), a combinational block that no instruction
uses (R123), and the code of a trit on a wire (00_scope.md R8).
-/

namespace Sys2Proof.Machine

open Sys2Proof

/-- The value of a trit (00_scope.md R14). -/
def tritValue (t : Trit) : Int :=
  match t with
  | .neg => -1
  | .zero => 0
  | .pos => 1

/-- The trit of a value −1, 0 or +1; another integer is no trit. -/
def tritOf (d : Int) : Option Trit :=
  if d = -1 then some .neg
  else if d = 0 then some .zero
  else if d = 1 then some .pos
  else none

/-- The low-order digit of a value, `emod(v + 1, 3) − 1` (47_word_codec.md R125), as a trit. -/
def lowTrit (v : Int) : Trit :=
  if emod (v + 1) 3 = 0 then .neg
  else if emod (v + 1) 3 = 1 then .zero
  else .pos

/-- The loop of the encoder (47_word_codec.md R125): `w` digits of `v`, each put in front of `out`. -/
def encodeLoop (w : Nat) (v : Int) (out : List Trit) : List Trit :=
  match w with
  | 0 => out
  | w + 1 => encodeLoop w ((v - tritValue (lowTrit v)) / 3) (lowTrit v :: out)

/-- The `w` trits of a value, most significant first (47_word_codec.md R125). -/
def toTrits (v : Int) (w : Nat) : List Trit :=
  encodeLoop w v []

/-- `from_integer(value, w)`: refused for a negative width (47_word_codec.md R124). -/
def fromInteger (v w : Int) : Except Refusal (List Trit) :=
  if w < 0 then .error (.codecNegativeWidth w) else .ok (toTrits v w.toNat)

/-- The positional sum of a trit sequence, the first trit most significant (47_word_codec.md R126). -/
def ofTrits (ts : List Trit) : Int :=
  match ts with
  | [] => 0
  | t :: rest => tritValue t * 3 ^ rest.length + ofTrits rest

/-- A sequence of integers read as trits; the first entry that is none is refused (47_word_codec.md R126). -/
def readTrits (ds : List Int) : Except Refusal (List Trit) :=
  match ds with
  | [] => .ok []
  | d :: rest =>
    match tritOf d with
    | none => .error (.codecNotATrit d)
    | some t =>
      match readTrits rest with
      | .error r => .error r
      | .ok ts => .ok (t :: ts)

/-- `to_integer(t)` (47_word_codec.md R126). -/
def toInteger (ds : List Int) : Except Refusal Int :=
  match readTrits ds with
  | .error r => .error r
  | .ok ts => .ok (ofTrits ts)

/-- The code of a trit on a wire (00_scope.md R8). -/
def codeOfTrit (c : TritCode) (t : Trit) : Nat :=
  match t with
  | .neg => c.ofNeg
  | .zero => c.ofZero
  | .pos => c.ofPos

/-- The trit a code stands for (00_scope.md R8). -/
def tritOfCode (c : TritCode) (n : Nat) : Option Trit :=
  if n = c.ofNeg then some .neg
  else if n = c.ofZero then some .zero
  else if n = c.ofPos then some .pos
  else none

end Sys2Proof.Machine
end

