-- ==== Sys2Proof/Machine/HostOps.lean ====
section
/-!
DEFINITION. The host's operations, each taken between steps (40_execution_cycle.md R81 to R83, 70_reset_and_hazards.md
R147 to R149, 20_memory.md R38).
-/

namespace Sys2Proof.Machine

open Sys2Proof

/-- Installing a program and a data image that fit (70_reset_and_hazards.md R148): both memories are replaced, `pc` is 0
and `running` is true; the registers stay. -/
def State.install (s : State) (prog : List Slot) (data : List Int) : State :=
  { s with
    pmem := memOfList Slot.empty 0 prog
    dmem := memOfList 0 0 data
    pc := 0
    running := true }

/-- Every integer a load would put into a slot or a data cell is one that the machine's word can hold (00_scope.md R7).
With unbounded words this is always so. -/
def imagesFit (p : Params) (prog : List Slot) (data : List Int) : Bool :=
  prog.all (fun sl => fits p sl.val) && data.all (fits p)

/-- `load(prog, data)` (70_reset_and_hazards.md R148): no effect in the fault state; a program or a data image that is
too large raises its fault, the program being tested first (60_exceptions.md R137). A finite realisation raises
`WordOverflow` for every value it cannot hold (00_scope.md R7), so also for one in an image: that this is tested last
and records `pc` is notes/assumptions/5.md. -/
def State.load (s : State) (prog : List Slot) (data : List Int) : State :=
  match s.fault with
  | some _ => s
  | none =>
    if s.params.pcap < prog.length then s.raiseFault (.programTooLarge prog.length)
    else if s.params.dcap < data.length then s.raiseFault (.dataImageTooLarge data.length)
    else if imagesFit s.params prog data then s.install prog data
    else s.raiseFault (.wordOverflow s.pc)

/-- The host's `step()` (40_execution_cycle.md R83): where the machine has no step the state is unchanged (R77). -/
def State.hostStep (s : State) : State :=
  match step s with
  | .next t => t
  | .fault _ => s
  | .refused _ => s

/-- The test of the run loop (40_execution_cycle.md R81). -/
def State.runs (s : State) : Bool :=
  s.running && s.fault.isNone

/-- The run loop under fuel (40_execution_cycle.md R81, R82): at most `fuel` steps, each only while the test holds. -/
def State.runFor (s : State) (fuel : Nat) : State :=
  match fuel with
  | 0 => s
  | n + 1 => if s.runs then s.hostStep.runFor n else s

/-- `run()` returns, in the state `t` (40_execution_cycle.md R81, R82). -/
def State.RunReturns (s t : State) : Prop :=
  ∃ fuel, s.runFor fuel = t ∧ t.runs = false

/-- Reset: the construction of a fresh machine with the same parameters (70_reset_and_hazards.md R147). -/
def State.rebuild (s : State) : State :=
  State.fresh s.params

/-- What the host may do between steps (40_execution_cycle.md R83, 70_reset_and_hazards.md R147). -/
inductive HostOp where
  | step
  | run (fuel : Nat)
  | load (prog : List Slot) (data : List Int)
  | reset
deriving DecidableEq, Repr

/-- The state after one host operation. -/
def State.apply (s : State) (op : HostOp) : State :=
  match op with
  | .step => s.hostStep
  | .run fuel => s.runFor fuel
  | .load prog data => s.load prog data
  | .reset => s.rebuild

/-- The state after a sequence of host operations. -/
def State.applyAll (s : State) (ops : List HostOp) : State :=
  match ops with
  | [] => s
  | op :: rest => (s.apply op).applyAll rest

/-- What the host reads (40_execution_cycle.md R83); reading changes nothing. -/
structure HostView where
  /-- `registers`. -/
  registers : Regs
  /-- `pc`. -/
  pc : Int
  /-- `running`. -/
  running : Bool
  /-- `fault`. -/
  fault : Option FaultKind
  /-- `memory`: the program slots, from slot 0 to slot `PCAP − 1`. -/
  memory : List Slot
  /-- `data_memory`: the data cells, from cell 0 to cell `DCAP − 1`. -/
  dataMemory : List Int
deriving DecidableEq, Repr

/-- The host's reads of a state. -/
def State.view (s : State) : HostView :=
  { registers := s.regs
    pc := s.pc
    running := s.running
    fault := s.fault
    memory := memCells Slot.empty s.pmem 0 s.params.pcap
    dataMemory := memCells 0 s.dmem 0 s.params.dcap }

/-- The cause code of a fault kind (60_exceptions.md R132). -/
def FaultKind.code (k : FaultKind) : Nat :=
  match k with
  | .illegalInstruction _ => 1
  | .wordOverflow _ => 2
  | .programTooLarge _ => 3
  | .dataImageTooLarge _ => 4

end Sys2Proof.Machine
end

