-- ==== Sys2Proof/Safety.lean ====
section
/-!
DEFINITION. The terms claims are made in: the invariant of the state, normal and faulted ends of a run, safe runs.
-/

namespace Sys2Proof.Machine

open Sys2Proof

/-- The invariant of every state a host can reach: legal parameters (00_scope.md R5, R6), both memories in canonical form
and inside their capacities (10_state.md R25, R26), and a faulted machine not running (60_exceptions.md R133). -/
def State.inv (s : State) : Bool :=
  s.params.wellFormed
    && Memory.wf Slot.empty s.pmem && memBelow s.params.pcap s.pmem
    && Memory.wf 0 s.dmem && memBelow s.params.dcap s.dmem
    && (s.fault.isNone || !s.running)

/-- Every register, every data cell and the integer field of every slot holds a value that the machine's word can hold
(00_scope.md R7, 60_exceptions.md R135). With unbounded words this is always so. -/
def State.valuesFit (s : State) : Bool :=
  fits s.params s.regs.a && fits s.params s.regs.b && fits s.params s.regs.c
    && s.dmem.all (fun e => fits s.params e.2) && s.pmem.all (fun e => fits s.params e.2.val)

/-- Every slot of program memory is empty or holds a legal instruction, as everything the assembler produces does
(30_encoding.md R62, R70). -/
def State.programLegal (s : State) : Bool :=
  s.pmem.all (fun e => e.2.fields.wellFormed)

/-- A normal end (40_execution_cycle.md R84). -/
def State.normalEnd (s : State) : Bool :=
  s.fault.isNone && !s.running

/-- A faulted end, never a normal one (40_execution_cycle.md R84, 60_exceptions.md R133). -/
def State.faultedEnd (s : State) : Bool :=
  s.fault.isSome

/-- A run that enters no fault, however far it goes. -/
def State.SafeRun (s : State) : Prop :=
  ∀ fuel : Nat, (s.runFor fuel).fault = none

/-- The instruction the next step of `s` executes stores to data cell `k`. -/
def State.storesTo (s : State) (k : Nat) : Prop :=
  ∃ i addr, s.fault = none ∧ s.fetch = .instr i ∧ storeOperand i = some addr ∧ s.cellIndex (s.effAddr addr) = k

/-- Two states that differ in no more than the value of the running flag. -/
def State.sameButRunning (s t : State) : Prop :=
  s.stop = t.stop

/-- Two states that agree on everything but, perhaps, registers outside `rs`. -/
def State.agreeOn (rs : List Reg) (s t : State) : Prop :=
  t = { s with regs := t.regs } ∧ ∀ r ∈ rs, s.regs.get r = t.regs.get r

/-- From `s` to `t` register `rd` came to hold `v`, `pc` advanced by one slot, and nothing else changed: no other
register, not the running flag, the fault state, the parameters, a data cell or a program slot. -/
def State.writesOnlyReg (s t : State) (rd : Reg) (v : Int) : Prop :=
  t.regs.get rd = v
    ∧ (∀ r, r ≠ rd → t.regs.get r = s.regs.get r)
    ∧ t.pc = s.pc + 1
    ∧ t.running = s.running ∧ t.fault = s.fault ∧ t.params = s.params
    ∧ (∀ addr, t.readCell addr = s.readCell addr)
    ∧ (∀ k, t.slotAt k = s.slotAt k)

/-- From `s` to `t` every address that reaches the cell of `addr` came to read `v`, `pc` advanced by one slot, and
nothing else changed. -/
def State.writesOnlyCell (s t : State) (addr : Int) (v : Int) : Prop :=
  (∀ b, s.cellIndex b = s.cellIndex addr → t.readCell b = v)
    ∧ (∀ b, s.cellIndex b ≠ s.cellIndex addr → t.readCell b = s.readCell b)
    ∧ (∀ r, t.regs.get r = s.regs.get r)
    ∧ t.pc = s.pc + 1
    ∧ t.running = s.running ∧ t.fault = s.fault ∧ t.params = s.params
    ∧ (∀ k, t.slotAt k = s.slotAt k)

/-- The same machine with unbounded words (00_scope.md R7). -/
def State.unbounded (s : State) : State :=
  { s with params := { s.params with wordTrits := none } }

/-- The header `base` with the codes `ra` and `rb` in their fields (30_encoding.md R45). -/
def headerWith (base : BitVec 12) (ra rb : BitVec 2) : BitVec 12 :=
  base ||| (ra.setWidth 12 <<< 5) ||| (rb.setWidth 12 <<< 9)

end Sys2Proof.Machine
end

