-- ==== Sys2Proof/Laws/State.lean ====
section
/-!
SUPPORT. One lemma for each field of the state under each update, so that no later proof unfolds a record update.
-/

namespace Sys2Proof.Machine

open Sys2Proof

@[simp] theorem State.setReg_params (s : State) (r : Reg) (v : Int) : (s.setReg r v).params = s.params := rfl

@[simp] theorem State.setReg_regs (s : State) (r : Reg) (v : Int) : (s.setReg r v).regs = s.regs.set r v := rfl

@[simp] theorem State.setReg_pc (s : State) (r : Reg) (v : Int) : (s.setReg r v).pc = s.pc := rfl

@[simp] theorem State.setReg_running (s : State) (r : Reg) (v : Int) : (s.setReg r v).running = s.running := rfl

@[simp] theorem State.setReg_fault (s : State) (r : Reg) (v : Int) : (s.setReg r v).fault = s.fault := rfl

@[simp] theorem State.setReg_pmem (s : State) (r : Reg) (v : Int) : (s.setReg r v).pmem = s.pmem := rfl

@[simp] theorem State.setReg_dmem (s : State) (r : Reg) (v : Int) : (s.setReg r v).dmem = s.dmem := rfl

@[simp] theorem State.writeCell_params (s : State) (addr : Int) (v : Int) : (s.writeCell addr v).params = s.params := rfl

@[simp] theorem State.writeCell_regs (s : State) (addr : Int) (v : Int) : (s.writeCell addr v).regs = s.regs := rfl

@[simp] theorem State.writeCell_pc (s : State) (addr : Int) (v : Int) : (s.writeCell addr v).pc = s.pc := rfl

@[simp] theorem State.writeCell_running (s : State) (addr : Int) (v : Int) : (s.writeCell addr v).running = s.running := rfl

@[simp] theorem State.writeCell_fault (s : State) (addr : Int) (v : Int) : (s.writeCell addr v).fault = s.fault := rfl

@[simp] theorem State.writeCell_pmem (s : State) (addr : Int) (v : Int) : (s.writeCell addr v).pmem = s.pmem := rfl

@[simp] theorem State.writeCell_dmem (s : State) (addr : Int) (v : Int) : (s.writeCell addr v).dmem = memWrite 0 s.dmem (s.cellIndex addr) v := rfl

@[simp] theorem State.putSlot_params (s : State) (k : Nat) (sl : Slot) : (s.putSlot k sl).params = s.params := rfl

@[simp] theorem State.putSlot_regs (s : State) (k : Nat) (sl : Slot) : (s.putSlot k sl).regs = s.regs := rfl

@[simp] theorem State.putSlot_pc (s : State) (k : Nat) (sl : Slot) : (s.putSlot k sl).pc = s.pc := rfl

@[simp] theorem State.putSlot_running (s : State) (k : Nat) (sl : Slot) : (s.putSlot k sl).running = s.running := rfl

@[simp] theorem State.putSlot_fault (s : State) (k : Nat) (sl : Slot) : (s.putSlot k sl).fault = s.fault := rfl

@[simp] theorem State.putSlot_pmem (s : State) (k : Nat) (sl : Slot) : (s.putSlot k sl).pmem = memWrite Slot.empty s.pmem k sl := rfl

@[simp] theorem State.putSlot_dmem (s : State) (k : Nat) (sl : Slot) : (s.putSlot k sl).dmem = s.dmem := rfl

@[simp] theorem State.advance_params (s : State) : (s.advance).params = s.params := rfl

@[simp] theorem State.advance_regs (s : State) : (s.advance).regs = s.regs := rfl

@[simp] theorem State.advance_pc (s : State) : (s.advance).pc = s.pc + 1 := rfl

@[simp] theorem State.advance_running (s : State) : (s.advance).running = s.running := rfl

@[simp] theorem State.advance_fault (s : State) : (s.advance).fault = s.fault := rfl

@[simp] theorem State.advance_pmem (s : State) : (s.advance).pmem = s.pmem := rfl

@[simp] theorem State.advance_dmem (s : State) : (s.advance).dmem = s.dmem := rfl

@[simp] theorem State.setPc_params (s : State) (t : Int) : (s.setPc t).params = s.params := rfl

@[simp] theorem State.setPc_regs (s : State) (t : Int) : (s.setPc t).regs = s.regs := rfl

@[simp] theorem State.setPc_pc (s : State) (t : Int) : (s.setPc t).pc = t := rfl

@[simp] theorem State.setPc_running (s : State) (t : Int) : (s.setPc t).running = s.running := rfl

@[simp] theorem State.setPc_fault (s : State) (t : Int) : (s.setPc t).fault = s.fault := rfl

@[simp] theorem State.setPc_pmem (s : State) (t : Int) : (s.setPc t).pmem = s.pmem := rfl

@[simp] theorem State.setPc_dmem (s : State) (t : Int) : (s.setPc t).dmem = s.dmem := rfl

@[simp] theorem State.stop_params (s : State) : (s.stop).params = s.params := rfl

@[simp] theorem State.stop_regs (s : State) : (s.stop).regs = s.regs := rfl

@[simp] theorem State.stop_pc (s : State) : (s.stop).pc = s.pc := rfl

@[simp] theorem State.stop_running (s : State) : (s.stop).running = false := rfl

@[simp] theorem State.stop_fault (s : State) : (s.stop).fault = s.fault := rfl

@[simp] theorem State.stop_pmem (s : State) : (s.stop).pmem = s.pmem := rfl

@[simp] theorem State.stop_dmem (s : State) : (s.stop).dmem = s.dmem := rfl

@[simp] theorem State.raiseFault_params (s : State) (k : FaultKind) : (s.raiseFault k).params = s.params := rfl

@[simp] theorem State.raiseFault_regs (s : State) (k : FaultKind) : (s.raiseFault k).regs = s.regs := rfl

@[simp] theorem State.raiseFault_pc (s : State) (k : FaultKind) : (s.raiseFault k).pc = s.pc := rfl

@[simp] theorem State.raiseFault_running (s : State) (k : FaultKind) : (s.raiseFault k).running = false := rfl

@[simp] theorem State.raiseFault_fault (s : State) (k : FaultKind) : (s.raiseFault k).fault = some k := rfl

@[simp] theorem State.raiseFault_pmem (s : State) (k : FaultKind) : (s.raiseFault k).pmem = s.pmem := rfl

@[simp] theorem State.raiseFault_dmem (s : State) (k : FaultKind) : (s.raiseFault k).dmem = s.dmem := rfl

@[simp] theorem State.install_params (s : State) (prog : List Slot) (data : List Int) : (s.install prog data).params = s.params := rfl

@[simp] theorem State.install_regs (s : State) (prog : List Slot) (data : List Int) : (s.install prog data).regs = s.regs := rfl

@[simp] theorem State.install_pc (s : State) (prog : List Slot) (data : List Int) : (s.install prog data).pc = 0 := rfl

@[simp] theorem State.install_running (s : State) (prog : List Slot) (data : List Int) : (s.install prog data).running = true := rfl

@[simp] theorem State.install_fault (s : State) (prog : List Slot) (data : List Int) : (s.install prog data).fault = s.fault := rfl

@[simp] theorem State.install_pmem (s : State) (prog : List Slot) (data : List Int) : (s.install prog data).pmem = memOfList Slot.empty 0 prog := rfl

@[simp] theorem State.install_dmem (s : State) (prog : List Slot) (data : List Int) : (s.install prog data).dmem = memOfList 0 0 data := rfl

@[simp] theorem State.fresh_params (p : Params) : (State.fresh p).params = p := rfl

@[simp] theorem State.fresh_regs (p : Params) : (State.fresh p).regs = ⟨0, 0, 0⟩ := rfl

@[simp] theorem State.fresh_pc (p : Params) : (State.fresh p).pc = 0 := rfl

@[simp] theorem State.fresh_running (p : Params) : (State.fresh p).running = true := rfl

@[simp] theorem State.fresh_fault (p : Params) : (State.fresh p).fault = none := rfl

@[simp] theorem State.fresh_pmem (p : Params) : (State.fresh p).pmem = [] := rfl

@[simp] theorem State.fresh_dmem (p : Params) : (State.fresh p).dmem = [] := rfl

/-! ### The register file -/

@[simp] theorem Regs.get_set_same (x : Regs) (r : Reg) (v : Int) : (x.set r v).get r = v := by
  cases r <;> rfl

theorem Regs.get_set_other (x : Regs) (r r' : Reg) (v : Int) (h : r' ≠ r) : (x.set r v).get r' = x.get r' := by
  cases r <;> cases r' <;> first | rfl | exact absurd rfl h

/-- Two register files that agree on every register are equal. -/
theorem Regs.ext_get (x y : Regs) (h : ∀ r, x.get r = y.get r) : x = y := by
  have ha : x.a = y.a := h .a
  have hb : x.b = y.b := h .b
  have hc : x.c = y.c := h .c
  cases x; cases y; simp_all

end Sys2Proof.Machine
end

