-- ==== Sys2Proof/Laws/Memory.lean ====
section
/-!
SUPPORT. A memory reads what was last written, every operation keeps its canonical form and its bound, and a list
installed into it is read back.
-/

namespace Sys2Proof.Machine

open Sys2Proof

section
variable {α : Type}

/-! ### Reading after writing -/

/-- An index below every listed one reads as blank. -/
theorem memRead_below_start [DecidableEq α] (blank : α) (m : Memory α) (start k : Nat)
    (hw : memWfFrom blank start m = true) (hk : k < start) : memRead blank m k = blank := by
  induction m generalizing start with
  | nil => rfl
  | cons e rest ih =>
    simp only [memWfFrom, Bool.and_eq_true, decide_eq_true_eq] at hw
    have hne : k ≠ e.1 := by omega
    simp only [memRead, hne, if_false]
    exact ih _ hw.2 (by omega)

theorem memRead_memWrite [DecidableEq α] (blank : α) (m : Memory α) (start k k' : Nat) (v : α)
    (hw : memWfFrom blank start m = true) :
    memRead blank (memWrite blank m k v) k' = if k' = k then v else memRead blank m k' := by
  induction m generalizing start with
  | nil => by_cases hv : v = blank <;> by_cases hk : k' = k <;> simp [memWrite, memRead, hv, hk]
  | cons e rest ih =>
    simp only [memWfFrom, Bool.and_eq_true, decide_eq_true_eq] at hw
    obtain ⟨-, hrest⟩ := hw
    by_cases hlt : k < e.1
    · have hb := memRead_below_start blank rest (e.1 + 1) k hrest (by omega)
      have hne : k ≠ e.1 := by omega
      by_cases hv : v = blank <;> by_cases hk : k' = k <;>
        simp_all [memWrite, memRead]
    · by_cases heq : k = e.1
      · have hb := memRead_below_start blank rest (e.1 + 1) k hrest (by omega)
        by_cases hv : v = blank <;> by_cases hk : k' = k <;>
          simp_all [memWrite, memRead]
      · have hi := ih (e.1 + 1) hrest
        by_cases hk : k' = e.1
        · have hne : k' ≠ k := by omega
          have hne' : e.1 ≠ k := by omega
          simp [memWrite, memRead, hlt, heq, hk, hne']
        · simp [memWrite, memRead, hlt, heq, hk, hi]

theorem memRead_memWrite_same [DecidableEq α] (blank : α) (m : Memory α) (k : Nat) (v : α)
    (hw : Memory.wf blank m = true) : memRead blank (memWrite blank m k v) k = v := by
  simp [memRead_memWrite blank m 0 k k v hw]

theorem memRead_memWrite_other [DecidableEq α] (blank : α) (m : Memory α) (k k' : Nat) (v : α)
    (hw : Memory.wf blank m = true) (h : k' ≠ k) :
    memRead blank (memWrite blank m k v) k' = memRead blank m k' := by
  simp [memRead_memWrite blank m 0 k k' v hw, h]

/-! ### The canonical form and the bound -/

theorem memWfFrom_mono [DecidableEq α] (blank : α) (m : Memory α) (a b : Nat) (hab : a ≤ b)
    (hw : memWfFrom blank b m = true) : memWfFrom blank a m = true := by
  cases m with
  | nil => rfl
  | cons e rest =>
    simp only [memWfFrom, Bool.and_eq_true, decide_eq_true_eq] at hw ⊢
    exact ⟨⟨by omega, hw.1.2⟩, hw.2⟩

theorem memWfFrom_memWrite [DecidableEq α] (blank : α) (m : Memory α) (start k : Nat) (v : α) (hk : start ≤ k)
    (hw : memWfFrom blank start m = true) : memWfFrom blank start (memWrite blank m k v) = true := by
  induction m generalizing start with
  | nil => by_cases hv : v = blank <;> simp [memWrite, memWfFrom, hv, hk]
  | cons e rest ih =>
    have hw' := hw
    simp only [memWfFrom, Bool.and_eq_true, decide_eq_true_eq] at hw'
    obtain ⟨⟨hs, hb⟩, hrest⟩ := hw'
    unfold memWrite
    split
    · split
      · exact hw
      · simp only [memWfFrom, Bool.and_eq_true, decide_eq_true_eq]
        refine ⟨⟨hk, by simpa⟩, ⟨by omega, hb⟩, hrest⟩
    · split
      · split
        · exact memWfFrom_mono blank rest _ _ (by omega) hrest
        · rename_i heq hv
          simp only [memWfFrom, Bool.and_eq_true, decide_eq_true_eq]
          exact ⟨⟨hk, by simpa⟩, by simpa [heq] using hrest⟩
      · simp only [memWfFrom, Bool.and_eq_true, decide_eq_true_eq]
        exact ⟨⟨hs, hb⟩, ih _ (by omega) hrest⟩

/-- Writing keeps the canonical form. -/
theorem Memory.wf_memWrite [DecidableEq α] (blank : α) (m : Memory α) (k : Nat) (v : α)
    (hw : Memory.wf blank m = true) : Memory.wf blank (memWrite blank m k v) = true :=
  memWfFrom_memWrite blank m 0 k v (Nat.zero_le k) hw

/-- Writing below the bound keeps the bound. -/
theorem memBelow_memWrite [DecidableEq α] (blank : α) (n : Nat) (m : Memory α) (k : Nat) (v : α) (hk : k < n)
    (hm : memBelow n m = true) : memBelow n (memWrite blank m k v) = true := by
  induction m with
  | nil => by_cases hv : v = blank <;> simp [memWrite, memBelow, hv, hk]
  | cons e rest ih =>
    simp only [memBelow, Bool.and_eq_true, decide_eq_true_eq] at hm
    unfold memWrite
    split
    · split <;> simp [memBelow, hk, hm]
    · split
      · split <;> simp [memBelow, hk, hm]
      · simp [memBelow, hm.1, ih hm.2]

/-! ### Installing a list -/

theorem memWfFrom_memOfList [DecidableEq α] (blank : α) (start : Nat) (xs : List α) :
    memWfFrom blank start (memOfList blank start xs) = true := by
  induction xs generalizing start with
  | nil => rfl
  | cons x rest ih =>
    by_cases hx : x = blank
    · simpa [memOfList, hx] using memWfFrom_mono blank _ _ _ (Nat.le_succ start) (ih (start + 1))
    · simp [memOfList, hx, memWfFrom, ih]

/-- An installed list is in canonical form. -/
theorem Memory.wf_memOfList [DecidableEq α] (blank : α) (xs : List α) :
    Memory.wf blank (memOfList blank 0 xs) = true :=
  memWfFrom_memOfList blank 0 xs

/-- An installed list stays below its end. -/
theorem memBelow_memOfList [DecidableEq α] (blank : α) (n start : Nat) (xs : List α) (h : start + xs.length ≤ n) :
    memBelow n (memOfList blank start xs) = true := by
  induction xs generalizing start with
  | nil => rfl
  | cons x rest ih =>
    simp only [List.length_cons] at h
    have hi := ih (start + 1) (by omega)
    by_cases hx : x = blank
    · simpa [memOfList, hx] using hi
    · simp [memOfList, hx, memBelow, hi]; omega

/-- An installed list is read back, and an index outside it reads as blank. -/
theorem memRead_memOfList [DecidableEq α] (blank : α) (start k : Nat) (xs : List α) :
    memRead blank (memOfList blank start xs) k = if start ≤ k then xs.getD (k - start) blank else blank := by
  induction xs generalizing start with
  | nil => simp [memOfList, memRead]
  | cons x rest ih =>
    have hi := ih (start + 1)
    by_cases hx : x = blank <;> by_cases hk : k = start
    · subst hk; simp [memOfList, hx, hi]
    · by_cases hle : start ≤ k
      · have hs : k - start = (k - (start + 1)) + 1 := by omega
        have hle' : start + 1 ≤ k := by omega
        simp [memOfList, hx, hi, hle, hle', hs]
      · have hle' : ¬ start + 1 ≤ k := by omega
        simp [memOfList, hx, hi, hle, hle']
    · subst hk; simp [memOfList, hx, memRead]
    · by_cases hle : start ≤ k
      · have hs : k - start = (k - (start + 1)) + 1 := by omega
        have hle' : start + 1 ≤ k := by omega
        simp [memOfList, hx, memRead, hk, hi, hle, hle', hs]
      · have hle' : ¬ start + 1 ≤ k := by omega
        simp [memOfList, hx, memRead, hk, hi, hle, hle']

/-- The host's listing of a memory, entry by entry. -/
theorem memCells_getD (blank : α) (m : Memory α) (start n j : Nat) (hj : j < n) :
    (memCells blank m start n).getD j blank = memRead blank m (start + j) := by
  induction n generalizing start j with
  | zero => omega
  | succ n ih =>
    cases j with
    | zero => simp [memCells]
    | succ j =>
      simp only [memCells, List.getD_cons_succ]
      rw [ih (start + 1) j (by omega)]
      congr 1; omega

end

end Sys2Proof.Machine
end

