-- ==== Sys2Proof/Laws/Ops.lean ====
section
/-!
SUPPORT. What each shared operation can do, once, and from it what an instruction, a step and a load can do. Later
proofs cite these lemmas instead of unfolding the machine.
-/

namespace Sys2Proof.Machine

open Sys2Proof

/-! ### Words and cells -/

/-- Unbounded words hold everything (00_scope.md R7). -/
theorem fits_unbounded (p : Params) (v : Int) (h : p.wordTrits = none) : fits p v = true := by
  simp [fits, h]

/-- The range of a word of `n` trits (60_exceptions.md R135). -/
theorem fits_finite (p : Params) (v : Int) (n : Nat) (h : p.wordTrits = some n) :
    fits p v = true ↔ v.natAbs ≤ maxOfTrits n := by
  simp [fits, h]

/-- Every address reaches a cell (20_memory.md R30). -/
theorem State.cellIndex_lt (s : State) (addr : Int) (h : 1 ≤ s.params.dcap) : s.cellIndex addr < s.params.dcap := by
  have h0 : (0 : Int) ≤ Int.emod addr s.params.dcap := Int.emod_nonneg addr (by omega)
  have h1 : Int.emod addr s.params.dcap < s.params.dcap := Int.emod_lt_of_pos addr (by omega)
  unfold State.cellIndex emod
  omega

/-- A cell just written reads the value written, through any address that reaches it. -/
theorem State.readCell_writeCell_same (s : State) (a b : Int) (v : Int) (hw : Memory.wf 0 s.dmem = true)
    (h : s.cellIndex b = s.cellIndex a) : (s.writeCell a v).readCell b = v := by
  have hi : (s.writeCell a v).cellIndex b = s.cellIndex a := h
  simp only [State.readCell, State.writeCell_dmem, hi]
  exact memRead_memWrite_same 0 s.dmem _ v hw

/-- Every other cell is left alone. -/
theorem State.readCell_writeCell_other (s : State) (a b : Int) (v : Int) (hw : Memory.wf 0 s.dmem = true)
    (h : s.cellIndex b ≠ s.cellIndex a) : (s.writeCell a v).readCell b = s.readCell b := by
  have hi : (s.writeCell a v).cellIndex b = s.cellIndex b := rfl
  simp only [State.readCell, State.writeCell_dmem, hi]
  exact memRead_memWrite_other 0 s.dmem _ _ v hw h

/-- The images a machine can hold (00_scope.md R7). -/
theorem imagesFit_iff (p : Params) (prog : List Slot) (data : List Int) :
    imagesFit p prog data = true ↔ (∀ sl ∈ prog, fits p sl.val = true) ∧ ∀ v ∈ data, fits p v = true := by
  simp [imagesFit]

/-- Unbounded words hold every image (00_scope.md R7). -/
theorem imagesFit_unbounded (p : Params) (prog : List Slot) (data : List Int) (h : p.wordTrits = none) :
    imagesFit p prog data = true :=
  (imagesFit_iff p prog data).mpr ⟨fun sl _ => fits_unbounded p sl.val h, fun v _ => fits_unbounded p v h⟩

/-! ### How an instruction ends -/

theorem finishReg_of_fits (s : State) (rd : Reg) (v : Int) (h : fits s.params v = true) :
    finishReg s rd v = .next (s.advance.setReg rd v) := by
  simp [finishReg, h]

theorem finishReg_of_overflow (s : State) (rd : Reg) (v : Int) (h : fits s.params v = false) :
    finishReg s rd v = .next (s.raiseFault (.wordOverflow s.pc)) := by
  simp [finishReg, h]

theorem finishCell_of_fits (s : State) (addr : Int) (v : Int) (h : fits s.params v = true) :
    finishCell s addr v = .next (s.advance.writeCell addr v) := by
  simp [finishCell, h]

theorem finishCell_of_overflow (s : State) (addr : Int) (v : Int) (h : fits s.params v = false) :
    finishCell s addr v = .next (s.raiseFault (.wordOverflow s.pc)) := by
  simp [finishCell, h]

/-- Everything a register write can do. -/
theorem finishReg_cases (s t : State) (rd : Reg) (v : Int) (h : finishReg s rd v = .next t) :
    (fits s.params v = true ∧ t = s.advance.setReg rd v)
      ∨ (fits s.params v = false ∧ t = s.raiseFault (.wordOverflow s.pc)) := by
  cases hf : fits s.params v with
  | true => left; rw [finishReg_of_fits s rd v hf] at h; cases h; exact ⟨rfl, rfl⟩
  | false => right; rw [finishReg_of_overflow s rd v hf] at h; cases h; exact ⟨rfl, rfl⟩

/-- Everything a cell write can do. -/
theorem finishCell_cases (s t : State) (addr : Int) (v : Int) (h : finishCell s addr v = .next t) :
    (fits s.params v = true ∧ t = s.advance.writeCell addr v)
      ∨ (fits s.params v = false ∧ t = s.raiseFault (.wordOverflow s.pc)) := by
  cases hf : fits s.params v with
  | true => left; rw [finishCell_of_fits s addr v hf] at h; cases h; exact ⟨rfl, rfl⟩
  | false => right; rw [finishCell_of_overflow s addr v hf] at h; cases h; exact ⟨rfl, rfl⟩

/-- Everything a conditional jump can do. -/
theorem jumpIf_cases (c : Cond) (rs : Reg) (t : Int) (s : State) :
    (condHolds c (s.regs.get rs) = true ∧ jumpIf c rs t s = .next (s.advance.setPc t))
      ∨ (condHolds c (s.regs.get rs) = false ∧ jumpIf c rs t s = .next s.advance) := by
  cases hc : condHolds c (s.regs.get rs) with
  | true => left; simp [jumpIf, hc, finishPc]
  | false => right; simp [jumpIf, hc, finishPlain]

/-! ### What an instruction, a step and a load can do -/

/-- The five ways an instruction ends: `pc` advances, `running` is cleared too, `pc` is set, the register of R18 is
written, or the cell of its address operand is written. -/
theorem exec_shape (i : Instr) (s : State) :
    exec i s = finishPlain s ∨ (i = .hlt ∧ exec i s = finishHalt s) ∨ (∃ t, exec i s = finishPc s t)
      ∨ (∃ rd v, regWritten i = some rd ∧ exec i s = finishReg s rd v)
      ∨ (∃ addr v, storeOperand i = some addr ∧ exec i s = finishCell s (s.effAddr addr) v) := by
  cases i with
  | nop => exact .inl rfl
  | hlt => exact .inr (.inl ⟨rfl, rfl⟩)
  | jmp t => exact .inr (.inr (.inl ⟨t, rfl⟩))
  | jz rs t =>
    rcases jumpIf_cases .zero rs t s with ⟨-, h⟩ | ⟨-, h⟩
    · exact .inr (.inr (.inl ⟨t, h⟩))
    · exact .inl h
  | jn rs t =>
    rcases jumpIf_cases .negative rs t s with ⟨-, h⟩ | ⟨-, h⟩
    · exact .inr (.inr (.inl ⟨t, h⟩))
    · exact .inl h
  | jp rs t =>
    rcases jumpIf_cases .positive rs t s with ⟨-, h⟩ | ⟨-, h⟩
    · exact .inr (.inr (.inl ⟨t, h⟩))
    · exact .inl h
  | stAddr rs addr => exact .inr (.inr (.inr (.inr ⟨_, _, rfl, rfl⟩)))
  | stInd rs ri => exact .inr (.inr (.inr (.inr ⟨_, _, rfl, rfl⟩)))
  | _ => exact .inr (.inr (.inr (.inl ⟨_, _, rfl, rfl⟩)))

/-- Everything an instruction can do to the state. -/
theorem exec_cases (i : Instr) (s t : State) (h : exec i s = .next t) :
    t = s.advance ∨ (i = .hlt ∧ t = s.advance.stop) ∨ (∃ target, t = s.advance.setPc target)
      ∨ (∃ rd v, regWritten i = some rd ∧ fits s.params v = true ∧ t = s.advance.setReg rd v)
      ∨ (∃ addr v, storeOperand i = some addr ∧ fits s.params v = true
          ∧ t = s.advance.writeCell (s.effAddr addr) v)
      ∨ (∃ v, fits s.params v = false ∧ t = s.raiseFault (.wordOverflow s.pc)) := by
  rcases exec_shape i s with he | ⟨hi, he⟩ | ⟨target, he⟩ | ⟨rd, v, hr, he⟩ | ⟨addr, v, hs, he⟩ <;> rw [he] at h
  · cases h; exact .inl rfl
  · cases h; exact .inr (.inl ⟨hi, rfl⟩)
  · cases h; exact .inr (.inr (.inl ⟨target, rfl⟩))
  · rcases finishReg_cases s t rd v h with ⟨hf, ht⟩ | ⟨hf, ht⟩
    · exact .inr (.inr (.inr (.inl ⟨rd, v, hr, hf, ht⟩)))
    · exact .inr (.inr (.inr (.inr (.inr ⟨v, hf, ht⟩))))
  · rcases finishCell_cases s t _ v h with ⟨hf, ht⟩ | ⟨hf, ht⟩
    · exact .inr (.inr (.inr (.inr (.inl ⟨addr, v, hs, hf, ht⟩))))
    · exact .inr (.inr (.inr (.inr (.inr ⟨v, hf, ht⟩))))

/-- Everything a step can do: halt cleanly, raise an illegal instruction, or run the instruction it fetched. -/
theorem step_cases (s t : State) (h : step s = .next t) :
    s.fault = none
      ∧ (((s.fetch = .outOfBounds ∨ s.fetch = .empty) ∧ t = s.stop)
        ∨ (s.fetch = .illegal ∧ t = s.raiseFault (.illegalInstruction s.pc))
        ∨ (∃ i, s.fetch = .instr i ∧ exec i s = .next t)) := by
  unfold step at h
  split at h
  · cases h
  · rename_i hf
    refine ⟨hf, ?_⟩
    split at h
    · rename_i hx; cases h; exact .inl ⟨.inl hx, rfl⟩
    · rename_i hx; cases h; exact .inl ⟨.inr hx, rfl⟩
    · rename_i hx; cases h; exact .inr (.inl ⟨hx, rfl⟩)
    · rename_i i hx; exact .inr (.inr ⟨i, hx, h⟩)

/-- Everything the fetch can find. -/
theorem fetch_cases (s : State) :
    (s.pcInBounds = false ∧ s.fetch = .outOfBounds)
      ∨ (s.pcInBounds = true ∧ decode (s.slotAt s.pc.toNat) = .empty ∧ s.fetch = .empty)
      ∨ (s.pcInBounds = true ∧ decode (s.slotAt s.pc.toNat) = .illegal ∧ s.fetch = .illegal)
      ∨ (∃ i, s.pcInBounds = true ∧ decode (s.slotAt s.pc.toNat) = .instr i ∧ s.fetch = .instr i) := by
  cases hb : s.pcInBounds with
  | false => exact .inl ⟨rfl, by simp [State.fetch, hb]⟩
  | true =>
    cases hd : decode (s.slotAt s.pc.toNat) with
    | empty => exact .inr (.inl ⟨rfl, rfl, by simp [State.fetch, hb, hd]⟩)
    | illegal => exact .inr (.inr (.inl ⟨rfl, rfl, by simp [State.fetch, hb, hd]⟩))
    | instr i => exact .inr (.inr (.inr ⟨i, rfl, rfl, by simp [State.fetch, hb, hd]⟩))

/-- Everything a load can do (70_reset_and_hazards.md R148). -/
theorem load_cases (s : State) (prog : List Slot) (data : List Int) :
    (∃ k, s.fault = some k ∧ s.load prog data = s)
      ∨ (s.fault = none ∧ s.params.pcap < prog.length
          ∧ s.load prog data = s.raiseFault (.programTooLarge prog.length))
      ∨ (s.fault = none ∧ prog.length ≤ s.params.pcap ∧ s.params.dcap < data.length
          ∧ s.load prog data = s.raiseFault (.dataImageTooLarge data.length))
      ∨ (s.fault = none ∧ prog.length ≤ s.params.pcap ∧ data.length ≤ s.params.dcap
          ∧ imagesFit s.params prog data = true ∧ s.load prog data = s.install prog data)
      ∨ (s.fault = none ∧ prog.length ≤ s.params.pcap ∧ data.length ≤ s.params.dcap
          ∧ imagesFit s.params prog data = false ∧ s.load prog data = s.raiseFault (.wordOverflow s.pc)) := by
  cases hf : s.fault with
  | some k => exact .inl ⟨k, rfl, by simp [State.load, hf]⟩
  | none =>
    by_cases hp : s.params.pcap < prog.length
    · exact .inr (.inl ⟨rfl, hp, by simp [State.load, hf, hp]⟩)
    · by_cases hd : s.params.dcap < data.length
      · exact .inr (.inr (.inl ⟨rfl, by omega, hd, by simp [State.load, hf, hp, hd]⟩))
      · cases hi : imagesFit s.params prog data with
        | true => exact .inr (.inr (.inr (.inl ⟨rfl, by omega, by omega, rfl, by simp [State.load, hf, hp, hd, hi]⟩)))
        | false => exact .inr (.inr (.inr (.inr ⟨rfl, by omega, by omega, rfl, by simp [State.load, hf, hp, hd, hi]⟩)))

/-! ### The run loop -/

@[simp] theorem State.runFor_zero (s : State) : s.runFor 0 = s := rfl

theorem State.runFor_stopped (s : State) (fuel : Nat) (h : s.runs = false) : s.runFor fuel = s := by
  cases fuel <;> simp [State.runFor, h]

theorem State.runFor_succ (s : State) (fuel : Nat) (h : s.runs = true) :
    s.runFor (fuel + 1) = s.hostStep.runFor fuel := by
  simp [State.runFor, h]

end Sys2Proof.Machine
end

