-- ==== Sys2Proof/Certificates/Slice0/Obligations.lean ====
section
/-!
DEFINITION. The statements for the provers, each one rule or one section of the spec. A docstring names the decision of
spec/92_eei_decisions.md a statement rests on, where the spec marks what it states as its own choice.
-/

open Sys2Proof Sys2Proof.Machine

/-- Decode and encode agree on all 33 forms. The packed format is the spec's own decision (92_eei_decisions.md D2). -/
def Obligations.DecodeOfEncodeIsTheInstruction : Prop :=
  ∀ i : Instr, decode (encode i) = .instr i

/-- Each legal slot has one meaning and each instruction one slot (92_eei_decisions.md D2: one-to-one). -/
def Obligations.DecodedSlotIsTheEncoding : Prop :=
  ∀ (sl : Slot) (i : Instr), decode sl = .instr i → encode i = sl

/-- The decoder's table and the field rules of the formats agree on which slots are illegal (92_eei_decisions.md D6),
and the empty slot is the one of decision D2. -/
def Obligations.IllegalSlotsAreTheDefectiveOnes : Prop :=
  ∀ sl : Slot, (decode sl = .illegal ↔ sl.fields.wellFormed = false)
    ∧ (decode sl = .empty ↔ sl = { h := 0x000#12, val := 0 })

/-- At most one form matches any header, an inference the spec marks as its own in 30_encoding.md section 5. -/
def Obligations.NoTwoFormsHitOneHeader : Prop :=
  forms.Pairwise (fun F G => ∀ h : BitVec 12, ¬ (F.hits h = true ∧ G.hits h = true))

/-- Slots of 95_test_vectors.md V4 to V8. -/
def Obligations.WordsOfTheSpecDecodeAsListed : Prop :=
  decode { h := 0xA82#12, val := 0 } = .instr (.movReg .a .b)
    ∧ decode { h := 0xCA6#12, val := 0 } = .instr (.divReg .b .c)
    ∧ decode { h := 0x94F#12, val := 2 } = .instr (.cmpImm .c 2)
    ∧ decode { h := 0x849#12, val := 0 } = .instr (.notReg .c)
    ∧ decode { h := 0x911#12, val := 9 } = .instr (.jz .a 9)
    ∧ decode { h := 0x910#12, val := -4 } = .instr (.jmp (-4))
    ∧ decode { h := 0xB94#12, val := 0 } = .instr (.ldInd .a .b)
    ∧ decode { h := 0xBD5#12, val := 0 } = .instr (.stInd .c .b)
    ∧ decode { h := 0x956#12, val := -1 } = .instr (.lea .c (-1))

/-- 40_execution_cycle.md section 2: the fetch at `pc`, then the dispatch. The advance of `pc` is part of each
meaning. -/
def Obligations.StepRunsTheDecodedInstruction : Prop :=
  ∀ (s : State) (i : Instr), s.fault = none → 0 ≤ s.pc → s.pc < s.params.pcap
    → decode (s.slotAt s.pc.toNat) = .instr i → step s = exec i s

/-- How a table's word comes to be fetched is the model's choice: notes/assumptions/4.md and 6.md. -/
def Obligations.TableWordRunsAtTheNextStep : Prop :=
  ∀ (s : State) (nbits w : Nat) (i : Instr), s.inv = true → decodeTableWord nbits w = some i
    → step (s.withFetchWord nbits w) = exec i (s.withFetchWord nbits w)
      ∧ (s.withFetchWord nbits w).regs = s.regs ∧ (s.withFetchWord nbits w).dmem = s.dmem
      ∧ (s.withFetchWord nbits w).params = s.params

/-- The clean halt of a run off the end. A negative `pc` counts as outside by the spec's decision D11. -/
def Obligations.StepOutsideProgramMemoryHalts : Prop :=
  ∀ s : State, s.fault = none → (s.pc < 0 ∨ (s.params.pcap : Int) ≤ s.pc)
    → step s = .next { s with running := false }

/-- The halt at an empty slot; that `pc` stays is the spec's decision D12. -/
def Obligations.StepAtAnEmptySlotHalts : Prop :=
  ∀ s : State, s.fault = none → 0 ≤ s.pc → s.pc < s.params.pcap → s.slotAt s.pc.toNat = Slot.empty
    → step s = .next { s with running := false }

/-- `IllegalInstruction` (the spec's decisions D6 and D22). -/
def Obligations.StepAtAnIllegalSlotFaults : Prop :=
  ∀ s : State, s.fault = none → 0 ≤ s.pc → s.pc < s.params.pcap
    → (s.slotAt s.pc.toNat).fields.wellFormed = false
    → step s = .next { s with fault := some (.illegalInstruction s.pc), running := false }

/-- The fault state is terminal until reset (the spec's decision D22). -/
def Obligations.FaultedMachineNeverChanges : Prop :=
  ∀ (s : State) (k : FaultKind), s.fault = some k
    → step s = .fault (.stuck k) ∧ s.hostStep = s ∧ (∀ fuel, s.runFor fuel = s)
      ∧ (∀ prog data, s.load prog data = s) ∧ s.rebuild.fault = none

/-- R79. The clauses: the step's answer does not depend on `running`; `running` true after means true before; a halted
machine still executes the slot at `pc`; a step after a halt out of bounds changes nothing. -/
def Obligations.StepIgnoresAndNeverSetsRunning : Prop :=
  (∀ (s t u : State) (b : Bool), step s = .next t → step { s with running := b } = .next u → t.sameButRunning u)
    ∧ (∀ (s : State) (b : Bool), (∃ t, step s = .next t) ↔ ∃ u, step { s with running := b } = .next u)
    ∧ (∀ s t : State, step s = .next t → t.running = true → s.running = true)
    ∧ (∀ (s : State) (i : Instr), s.running = false → s.fault = none → 0 ≤ s.pc → s.pc < s.params.pcap
        → decode (s.slotAt s.pc.toNat) = .instr i → step s = exec i s)
    ∧ (∀ s : State, s.running = false → s.fault = none → (s.pc < 0 ∨ (s.params.pcap : Int) ≤ s.pc)
        → step s = .next s)

/-- R76, for every instruction: the default increment and the jumps that override it. -/
def Obligations.PcAdvancesUnlessAJumpOverridesIt : Prop :=
  ∀ (s : State) (i : Instr), s.fault = none → s.params.wordTrits = none → 0 ≤ s.pc → s.pc < s.params.pcap
    → decode (s.slotAt s.pc.toNat) = .instr i
    → ∃ t, step s = .next t ∧ t.fault = none ∧ t.pc =
        match i with
        | .jmp target => target
        | .jz rs target => if s.regs.get rs = 0 then target else s.pc + 1
        | .jn rs target => if s.regs.get rs < 0 then target else s.pc + 1
        | .jp rs target => if 0 < s.regs.get rs then target else s.pc + 1
        | _ => s.pc + 1

/-- 20_memory.md section 4: no instruction writes program memory; it is mutated by load alone. -/
def Obligations.StepWritesNoProgramSlot : Prop :=
  ∀ s t : State, step s = .next t → t.params = s.params ∧ ∀ k, t.slotAt k = s.slotAt k

/-- Faults are precise (the spec's decision D22). -/
def Obligations.FaultsArePrecise : Prop :=
  ∀ (s t : State) (k : FaultKind), s.fault = none → step s = .next t → t.fault = some k
    → t = { s with fault := some k, running := false } ∧ (k = .illegalInstruction s.pc ∨ k = .wordOverflow s.pc)

/-- A finite realisation refines the unbounded machine up to `WordOverflow` (the spec's decision D23). `u` is what the
unbounded machine does. -/
def Obligations.FiniteWordsComputeTheSameOrFault : Prop :=
  ∀ (i : Instr) (s t u : State), s.inv = true → exec i s = .next t → exec i s.unbounded = .next u
    → (t = { u with params := s.params }
        ∧ (∀ rd, regWritten i = some rd → fits s.params (u.regs.get rd) = true)
        ∧ (∀ addr, storeOperand i = some addr → fits s.params (u.readCell (s.effAddr addr)) = true))
      ∨ (t = { s with fault := some (.wordOverflow s.pc), running := false }
        ∧ ((∃ rd, regWritten i = some rd ∧ fits s.params (u.regs.get rd) = false)
          ∨ (∃ addr, storeOperand i = some addr ∧ fits s.params (u.readCell (s.effAddr addr)) = false)))

/-- The range of a finite word (the spec's decision D23). -/
def Obligations.WordRangeIsSymmetric : Prop :=
  (∀ (p : Params) (v : Int) (n : Nat), p.wordTrits = some n → (fits p v = true ↔ 2 * v.natAbs ≤ 3 ^ n - 1))
    ∧ ∀ (p : Params) (v : Int), p.wordTrits = none → fits p v = true

/-- The invariant holds at reset (reset values: the spec's decision D13). -/
def Obligations.FreshMachineHasTheInvariant : Prop :=
  (∀ p : Params, p.wellFormed = true → (State.fresh p).inv = true ∧ (State.fresh p).valuesFit = true)
    ∧ State.reset.inv = true ∧ State.reset.valuesFit = true

/-- The invariant of every reachable state: `State.inv`. -/
def Obligations.EveryStepKeepsTheInvariant : Prop :=
  ∀ s t : State, s.inv = true → step s = .next t → t.inv = true

/-- The host's operations keep `State.inv`, loads that fault among them. -/
def Obligations.EveryHostSequenceKeepsTheInvariant : Prop :=
  ∀ (ops : List HostOp) (s : State), s.inv = true → (s.applyAll ops).inv = true

/-- No step stores and no load installs a value the word cannot hold (the spec's decision D23; the part about `load`
rests on the model's notes/assumptions/5.md). -/
def Obligations.EveryStepKeepsValuesInRange : Prop :=
  (∀ s t : State, s.valuesFit = true → step s = .next t → t.valuesFit = true)
    ∧ ∀ (ops : List HostOp) (s : State), s.valuesFit = true → (s.applyAll ops).valuesFit = true

/-- The reset values of 10_state.md section 6, which the spec marks as its own decision D13. -/
def Obligations.ResetLeavesTheValuesOfTheSpec : Prop :=
  (∀ s : State, (∀ r, s.rebuild.regs.get r = 0) ∧ s.rebuild.pc = 0 ∧ s.rebuild.running = true
      ∧ s.rebuild.fault = none ∧ (∀ k, s.rebuild.slotAt k = Slot.empty) ∧ (∀ addr, s.rebuild.readCell addr = 0)
      ∧ s.rebuild.params = s.params)
    ∧ (∀ r, State.reset.regs.get r = 0) ∧ State.reset.pc = 0 ∧ State.reset.running = true
    ∧ State.reset.fault = none ∧ (∀ k, State.reset.slotAt k = Slot.empty) ∧ (∀ addr, State.reset.readCell addr = 0)
    ∧ State.reset.params = { pcap := 27, dcap := 27, wordTrits := none }

/-- 60_exceptions.md sections 1 and 2: the runtime-safe conditions raise no fault, and no fault kind a step can raise
has its event here. A run may still end by a clean halt. -/
def Obligations.LegalProgramsNeverFault : Prop :=
  ∀ s : State, s.params.wordTrits = none → s.fault = none → s.programLegal = true → s.SafeRun

/-- The control states and their transitions (40_execution_cycle.md section 1), an inference the spec marks as its
own; the reset rests on decision D13, the load on D14, D15 and D22, and its clause about `imagesFit`, which says
something with finite words only, on the model's notes/assumptions/5.md (DESIGN CHOICE) beside D23. -/
def Obligations.ControlStateMovesAsTheSpecSays : Prop :=
  (∀ s t : State, step s = .next t → s.control = .halt → t.control = .halt ∨ t.control = .fault)
    ∧ (∀ s : State, s.control = .fault → ¬ ∃ t, step s = .next t)
    ∧ (∀ s t : State, step s = .next t → t.control = .run → s.control = .run)
    ∧ (∀ (s : State) (prog : List Slot) (data : List Int), s.control ≠ .fault →
        ((s.load prog data).control = .run ↔ prog.length ≤ s.params.pcap ∧ data.length ≤ s.params.dcap
            ∧ imagesFit s.params prog data = true)
        ∧ ((s.load prog data).control = .fault ↔ s.params.pcap < prog.length ∨ s.params.dcap < data.length
            ∨ imagesFit s.params prog data = false))
    ∧ (∀ s : State, s.rebuild.control = .run)
    ∧ (∀ (s : State) (op : HostOp), s.control = .fault → op ≠ .reset → s.apply op = s)
    ∧ ∀ (s : State) (op : HostOp), s.control ≠ .run → (s.apply op).control = .run
        → op = .reset ∨ (s.control = .halt ∧ ∃ prog data, op = .load prog data)

/-- R87, R88, R89. -/
def Obligations.AluSumDifferenceProductAreExact : Prop :=
  (∀ a b : Int, alu .add a b = a + b) ∧ alu .add 1 1 = 2 ∧ (∀ a b : Int, alu .sub a b = a - b)
    ∧ ∀ a b : Int, alu .mul a b = a * b

/-- R90, with tdiv characterised as in R10, and the rule's table. -/
def Obligations.AluQuotientTruncatesTowardZero : Prop :=
  (∀ a b : Int, b ≠ 0 → (alu .div a b).natAbs = a.natAbs / b.natAbs
      ∧ (0 ≤ a * b → 0 ≤ alu .div a b) ∧ (a * b ≤ 0 → alu .div a b ≤ 0))
    ∧ (∀ a : Int, alu .div a 0 = 0)
    ∧ alu .div 7 2 = 3 ∧ alu .div (-7) 2 = -3 ∧ alu .div 7 (-2) = -3 ∧ alu .div (-7) (-2) = 3
    ∧ alu .div 6 3 = 2 ∧ alu .div (-6) 3 = -2 ∧ alu .div 1 3 = 0 ∧ alu .div (-1) 3 = 0 ∧ alu .div 0 (-5) = 0

/-- R91, R92, R93. The unary function ignores its second argument. The trit tables are instances. -/
def Obligations.AluLogicIsMinimumMaximumNegation : Prop :=
  (∀ a b : Int, alu .min a b = min a b) ∧ (∀ a b : Int, alu .max a b = max a b) ∧ (∀ a b : Int, alu .neg a b = -a)
    ∧ alu .min 5 2 = 2 ∧ alu .max (-5) 2 = 2 ∧ alu .neg 5 0 = -5

/-- R94, R95, R98. -/
def Obligations.AluSignAbsoluteValueCompare : Prop :=
  (∀ a b : Int, (a < 0 → alu .sign a b = -1) ∧ (a = 0 → alu .sign a b = 0) ∧ (0 < a → alu .sign a b = 1))
    ∧ (∀ a b : Int, alu .abs a b = |a|)
    ∧ (∀ a b : Int, (a < b → alu .cmp3 a b = -1) ∧ (a = b → alu .cmp3 a b = 0) ∧ (b < a → alu .cmp3 a b = 1))
    ∧ ∀ a b : Int, alu .cmp3 a b = alu .sign (a - b) 0

/-- One trit place, the spec's decision D9; and `SHR3` is not the dropping of a trit. -/
def Obligations.AluShiftsByOneTrit : Prop :=
  (∀ a b : Int, alu .shl3 a b = 3 * a)
    ∧ (∀ a b : Int, (alu .shr3 a b).natAbs = a.natAbs / 3 ∧ (0 ≤ a → 0 ≤ alu .shr3 a b) ∧ (a ≤ 0 → alu .shr3 a b ≤ 0))
    ∧ alu .shr3 4 0 = 1 ∧ alu .shr3 (-4) 0 = -1 ∧ alu .shr3 (-2) 0 = 0 ∧ alu .shr3 (-5) 0 = -1
    ∧ toTrits (-2) 2 = [.neg, .pos] ∧ ofTrits [.neg] = -1

/-- The closure over trits, marked derived by the spec (41_ternary_alu.md section 4, last rule). -/
def Obligations.AluOnTritsStaysInTheTrits : Prop :=
  (∀ a b : Int, -1 ≤ a → a ≤ 1 → -1 ≤ b → b ≤ 1 →
      ∀ f ∈ [AluFn.min, .max, .neg, .sign, .abs, .cmp3, .mul, .div, .shr3], -1 ≤ alu f a b ∧ alu f a b ≤ 1)
    ∧ (∀ a b : Int, -1 ≤ a → a ≤ 1 → alu .shr3 a b = 0)
    ∧ alu .add 1 1 = 2 ∧ alu .sub 1 (-1) = 2 ∧ alu .shl3 1 0 = 3

/-- R86, stated of every instruction. -/
def Obligations.AluResultsCauseAtMostWordOverflow : Prop :=
  (∀ (i : Instr) (s t : State), exec i s = .next t
      → t.fault = s.fault ∨ (t.fault = some (.wordOverflow s.pc) ∧ s.params.wordTrits ≠ none))
    ∧ (∀ a : Int, alu .div a 0 = 0)
    ∧ ∀ a b : Int, alu .min a b = min a b ∧ alu .max a b = max a b ∧ alu .neg a b = -a

/-- R100. The header the rule gives is the spec's decision D2. -/
def Obligations.NopOnlyAdvancesPc : Prop :=
  encode .nop = { h := 0x800#12, val := 0 }
    ∧ (∀ s : State, exec .nop s = .next { s with pc := s.pc + 1 })
    ∧ ∀ s : State, s.fault = none → s.pc + 1 = s.params.pcap
        → step { s with pc := s.pc + 1 } = .next { s with pc := s.pc + 1, running := false }

/-- R101. The header the rule gives is the spec's decision D2. -/
def Obligations.HltClearsRunningAndAdvancesPc : Prop :=
  encode .hlt = { h := 0x801#12, val := 0 }
    ∧ (∀ s : State, exec .hlt s = .next { s with pc := s.pc + 1, running := false })
    ∧ (∀ (s t : State), exec .hlt s = .next t → ∀ fuel, t.runFor fuel = t)
    ∧ ∀ (s t : State) (i : Instr), exec .hlt s = .next t → s.fault = none → 0 ≤ t.pc → t.pc < t.params.pcap
        → decode (t.slotAt t.pc.toNat) = .instr i → step t = exec i t

/-- R102, with its encodings. `fits` always holds in the hardware of this spec. The header the rule gives is the
spec's decision D2. -/
def Obligations.MovWritesItsSource : Prop :=
  (∀ rd rs : Reg, encode (.movReg rd rs) = { h := headerWith 0x882#12 (regCode rd) (regCode rs), val := 0 })
    ∧ (∀ (rd : Reg) (n : Int), encode (.movImm rd n) = { h := headerWith 0x902#12 (regCode rd) 0, val := n })
    ∧ (∀ (s : State) (rd rs : Reg), fits s.params (s.regs.get rs) = true
        → ∃ t, exec (.movReg rd rs) s = .next t ∧ s.writesOnlyReg t rd (s.regs.get rs))
    ∧ (∀ (s : State) (rd : Reg) (n : Int), fits s.params (n) = true
        → ∃ t, exec (.movImm rd n) s = .next t ∧ s.writesOnlyReg t rd (n))

/-- 43_arithmetic.md; the immediate forms rest on the spec's decision D7. -/
def Obligations.AddSubMulWriteTheExactResult : Prop :=
  (∀ (s : State) (rd rs : Reg), fits s.params (s.regs.get rd + s.regs.get rs) = true
        → ∃ t, exec (.addReg rd rs) s = .next t ∧ s.writesOnlyReg t rd (s.regs.get rd + s.regs.get rs))
    ∧ (∀ (s : State) (rd : Reg) (n : Int), fits s.params (s.regs.get rd + n) = true
        → ∃ t, exec (.addImm rd n) s = .next t ∧ s.writesOnlyReg t rd (s.regs.get rd + n))
    ∧ (∀ (s : State) (rd rs : Reg), fits s.params (s.regs.get rd - s.regs.get rs) = true
        → ∃ t, exec (.subReg rd rs) s = .next t ∧ s.writesOnlyReg t rd (s.regs.get rd - s.regs.get rs))
    ∧ (∀ (s : State) (rd : Reg) (n : Int), fits s.params (s.regs.get rd - n) = true
        → ∃ t, exec (.subImm rd n) s = .next t ∧ s.writesOnlyReg t rd (s.regs.get rd - n))
    ∧ (∀ (s : State) (rd rs : Reg), fits s.params (s.regs.get rd * s.regs.get rs) = true
        → ∃ t, exec (.mulReg rd rs) s = .next t ∧ s.writesOnlyReg t rd (s.regs.get rd * s.regs.get rs))
    ∧ (∀ (s : State) (rd : Reg) (n : Int), fits s.params (s.regs.get rd * n) = true
        → ∃ t, exec (.mulImm rd n) s = .next t ∧ s.writesOnlyReg t rd (s.regs.get rd * n))

/-- 43_arithmetic.md; the immediate form rests on the spec's decision D7. -/
def Obligations.DivWritesTheTruncatedQuotient : Prop :=
  (∀ (s : State) (rd rs : Reg), fits s.params (if s.regs.get rs = 0 then 0 else Int.tdiv (s.regs.get rd) (s.regs.get rs)) = true
        → ∃ t, exec (.divReg rd rs) s = .next t ∧ s.writesOnlyReg t rd (if s.regs.get rs = 0 then 0 else Int.tdiv (s.regs.get rd) (s.regs.get rs)))
    ∧ (∀ (s : State) (rd : Reg) (n : Int), fits s.params (if n = 0 then 0 else Int.tdiv (s.regs.get rd) n) = true
        → ∃ t, exec (.divImm rd n) s = .next t ∧ s.writesOnlyReg t rd (if n = 0 then 0 else Int.tdiv (s.regs.get rd) n))

/-- 44_logic_and_ternary.md; the immediate forms rest on the spec's decision D7. -/
def Obligations.AndOrWriteMinimumAndMaximum : Prop :=
  (∀ (s : State) (rd rs : Reg), fits s.params (min (s.regs.get rd) (s.regs.get rs)) = true
        → ∃ t, exec (.andReg rd rs) s = .next t ∧ s.writesOnlyReg t rd (min (s.regs.get rd) (s.regs.get rs)))
    ∧ (∀ (s : State) (rd : Reg) (n : Int), fits s.params (min (s.regs.get rd) n) = true
        → ∃ t, exec (.andImm rd n) s = .next t ∧ s.writesOnlyReg t rd (min (s.regs.get rd) n))
    ∧ (∀ (s : State) (rd rs : Reg), fits s.params (max (s.regs.get rd) (s.regs.get rs)) = true
        → ∃ t, exec (.orReg rd rs) s = .next t ∧ s.writesOnlyReg t rd (max (s.regs.get rd) (s.regs.get rs)))
    ∧ (∀ (s : State) (rd : Reg) (n : Int), fits s.params (max (s.regs.get rd) n) = true
        → ∃ t, exec (.orImm rd n) s = .next t ∧ s.writesOnlyReg t rd (max (s.regs.get rd) n))

/-- R109, R110. The header the rule gives is the spec's decision D2. -/
def Obligations.NotAndNegNegate : Prop :=
  (∀ rd : Reg, encode (.notReg rd) = { h := headerWith 0x809#12 (regCode rd) 0, val := 0 } ∧ encode (.negReg rd) = { h := headerWith 0x80A#12 (regCode rd) 0, val := 0 }
        ∧ encode (.notReg rd) ≠ encode (.negReg rd))
    ∧ (∀ (s : State) (rd : Reg), fits s.params (-s.regs.get rd) = true
        → ∃ t, exec (.notReg rd) s = .next t ∧ s.writesOnlyReg t rd (-s.regs.get rd))
    ∧ (∀ (s : State) (rd : Reg), fits s.params (-s.regs.get rd) = true
        → ∃ t, exec (.negReg rd) s = .next t ∧ s.writesOnlyReg t rd (-s.regs.get rd))
    ∧ ∀ (s : State) (rd : Reg), exec (.notReg rd) s = exec (.negReg rd) s

/-- R111, R112. The header the rule gives is the spec's decision D2. -/
def Obligations.SignAndAbsWriteTheirFunction : Prop :=
  (∀ rd : Reg, encode (.signReg rd) = { h := headerWith 0x80B#12 (regCode rd) 0, val := 0 } ∧ encode (.absReg rd) = { h := headerWith 0x80C#12 (regCode rd) 0, val := 0 })
    ∧ (∀ (s : State) (rd : Reg), fits s.params (Int.sign (s.regs.get rd)) = true
        → ∃ t, exec (.signReg rd) s = .next t ∧ s.writesOnlyReg t rd (Int.sign (s.regs.get rd)))
    ∧ (∀ (s : State) (rd : Reg), fits s.params (|s.regs.get rd|) = true
        → ∃ t, exec (.absReg rd) s = .next t ∧ s.writesOnlyReg t rd (|s.regs.get rd|))

/-- 44_logic_and_ternary.md; the factor 3 is the spec's decision D9. -/
def Obligations.ShlAndShrShiftOneTrit : Prop :=
  (∀ (s : State) (rd : Reg), fits s.params (3 * s.regs.get rd) = true
        → ∃ t, exec (.shlReg rd) s = .next t ∧ s.writesOnlyReg t rd (3 * s.regs.get rd))
    ∧ (∀ (s : State) (rd : Reg), fits s.params (Int.tdiv (s.regs.get rd) 3) = true
        → ∃ t, exec (.shrReg rd) s = .next t ∧ s.writesOnlyReg t rd (Int.tdiv (s.regs.get rd) 3))

/-- 44_logic_and_ternary.md; the destination is the spec's decision D8, the immediate form D7. -/
def Obligations.CmpWritesTheSignOfTheDifference : Prop :=
  (∀ (s : State) (rd rs : Reg), fits s.params (Int.sign (s.regs.get rd - s.regs.get rs)) = true
        → ∃ t, exec (.cmpReg rd rs) s = .next t ∧ s.writesOnlyReg t rd (Int.sign (s.regs.get rd - s.regs.get rs)))
    ∧ (∀ (s : State) (rd : Reg) (n : Int), fits s.params (Int.sign (s.regs.get rd - n)) = true
        → ∃ t, exec (.cmpImm rd n) s = .next t ∧ s.writesOnlyReg t rd (Int.sign (s.regs.get rd - n)))

/-- R116. The header the rule gives is the spec's decision D2. -/
def Obligations.JmpSetsPcToItsTarget : Prop :=
  (∀ t : Int, encode (.jmp t) = { h := 0x910#12, val := t })
    ∧ (∀ (s : State) (t : Int), exec (.jmp t) s = .next { s with pc := t })
    ∧ (∀ s : State, exec (.jmp s.pc) s = .next s)
    ∧ (∀ s : State, exec (.jmp (s.pc + 1)) s = exec .nop s)
    ∧ (∀ (s u : State) (t : Int), s.fault = none → exec (.jmp t) s = .next u → (t < 0 ∨ (s.params.pcap : Int) ≤ t)
        → step u = .next { u with running := false })
    ∧ (∀ (s u : State) (t : Int), s.fault = none → exec (.jmp t) s = .next u → 0 ≤ t → t < s.params.pcap
        → s.slotAt t.toNat = Slot.empty → step u = .next { u with running := false })
    ∧ ∀ s : State, s.fault = none → s.running = true → 0 ≤ s.pc → s.pc < s.params.pcap
        → decode (s.slotAt s.pc.toNat) = .instr (.jmp s.pc) → ∀ t, ¬ s.RunReturns t

/-- R117, R118. The header the rule gives is the spec's decision D2. -/
def Obligations.JzAndJnTestTheNamedRegister : Prop :=
  (∀ (rs : Reg) (t : Int), encode (.jz rs t) = { h := headerWith 0x911#12 (regCode rs) 0, val := t }
        ∧ encode (.jn rs t) = { h := headerWith 0x912#12 (regCode rs) 0, val := t })
    ∧ (∀ (s : State) (rs : Reg) (t : Int), exec (.jz rs t) s =
        .next { s with pc := if s.regs.get rs = 0 then t else s.pc + 1 })
    ∧ (∀ (s : State) (rs : Reg) (t : Int), exec (.jn rs t) s =
        .next { s with pc := if s.regs.get rs < 0 then t else s.pc + 1 })

/-- 45_control_transfer.md; the selection rests on the spec's decisions D7 and D8. -/
def Obligations.JpAndTheSelectionAfterCmp : Prop :=
  (∀ (rs : Reg) (t : Int), encode (.jp rs t) = { h := headerWith 0x913#12 (regCode rs) 0, val := t })
    ∧ (∀ (s : State) (rs : Reg) (t : Int), exec (.jp rs t) s =
        .next { s with pc := if 0 < s.regs.get rs then t else s.pc + 1 })
    ∧ ∀ (s u : State) (rd : Reg) (t : Int) (i : Instr) (x : Int),
        ((∃ rs, i = .cmpReg rd rs ∧ x = s.regs.get rs) ∨ (i = .cmpImm rd x))
        → exec i s = .next u → s.fault = none → u.fault = none
        → exec (.jn rd t) u = .next { u with pc := if s.regs.get rd < x then t else u.pc + 1 }
          ∧ exec (.jz rd t) u = .next { u with pc := if s.regs.get rd = x then t else u.pc + 1 }
          ∧ exec (.jp rd t) u = .next { u with pc := if x < s.regs.get rd then t else u.pc + 1 }

/-- 46_memory_access.md; the residue for negative addresses is the spec's decision D10. The index register is read
before `rd` is written, also where they are one. -/
def Obligations.LdReadsTheReducedCell : Prop :=
  (∀ (s : State) (rd : Reg) (a : Int), fits s.params (memRead 0 s.dmem (Int.emod a s.params.dcap).toNat) = true
        → ∃ t, exec (.ldAddr rd a) s = .next t ∧ s.writesOnlyReg t rd (memRead 0 s.dmem (Int.emod a s.params.dcap).toNat))
    ∧ (∀ (s : State) (rd ri : Reg), fits s.params (memRead 0 s.dmem (Int.emod (s.regs.get ri) s.params.dcap).toNat) = true
        → ∃ t, exec (.ldInd rd ri) s = .next t ∧ s.writesOnlyReg t rd (memRead 0 s.dmem (Int.emod (s.regs.get ri) s.params.dcap).toNat))

/-- R121. The address is `State.effAddr` of the operand and the cell `State.cellIndex` of it, as in the meaning. The
header the rule gives is the spec's decision D2. -/
def Obligations.StStoresAtTheReducedCell : Prop :=
  (∀ (rs : Reg) (a : Int), encode (.stAddr rs a) = { h := headerWith 0x915#12 (regCode rs) 0, val := a })
    ∧ (∀ rs ri : Reg, encode (.stInd rs ri) = { h := headerWith 0x995#12 (regCode rs) (regCode ri), val := 0 })
    ∧ (∀ (s : State) (rs : Reg) (a : Int), s.inv = true → fits s.params (s.regs.get rs) = true
        → ∃ t, exec (.stAddr rs a) s = .next t ∧ s.writesOnlyCell t a (s.regs.get rs))
    ∧ (∀ (s : State) (rs ri : Reg), s.inv = true → fits s.params (s.regs.get rs) = true
        → ∃ t, exec (.stInd rs ri) s = .next t ∧ s.writesOnlyCell t (s.regs.get ri) (s.regs.get rs))
    ∧ (∀ (s t : State) (rs : Reg) (k : Int), s.inv = true → fits s.params (s.regs.get rs) = true
        → exec (.stAddr rs (s.params.dcap + k)) s = .next t
        → memRead 0 t.dmem (Int.emod k s.params.dcap).toNat = s.regs.get rs)
    ∧ ∀ (s : State) (i : Instr) (addr : Addr), storeOperand i = some addr → s.cellIndex (s.effAddr addr) =
        (Int.emod (s.effAddr addr) s.params.dcap).toNat

/-- 46_memory_access.md; which label a program writes there is the assembler's affair (30_encoding.md section 6), and
the header the spec's decision D2. -/
def Obligations.LeaWritesTheUnreducedAddress : Prop :=
  (∀ (rd : Reg) (a : Int), encode (.lea rd a) = { h := headerWith 0x916#12 (regCode rd) 0, val := a })
    ∧ (∀ (s : State) (rd : Reg) (a : Int), fits s.params (a) = true
        → ∃ t, exec (.lea rd a) s = .next t ∧ s.writesOnlyReg t rd (a))
    ∧ (∀ (s t u : State) (rd : Reg) (a : Int) (m : Memory Int), exec (.lea rd a) s = .next t
        → exec (.lea rd a) { s with dmem := m } = .next u → u.regs = t.regs)
    ∧ ∀ (s t : State) (rd : Reg) (a : Int), fits s.params a = true → exec (.lea rd a) s = .next t
        → t.cellIndex (t.effAddr (.indirect rd)) = (Int.emod a s.params.dcap).toNat

/-- 10_state.md section 2 (the table is marked derived by the spec): the frame of every instruction. -/
def Obligations.OnlyTheNamedDestinationChanges : Prop :=
  ∀ (i : Instr) (s t : State), s.inv = true → exec i s = .next t
    → (∀ r, regWritten i ≠ some r → t.regs.get r = s.regs.get r)
      ∧ (storeOperand i = none → ∀ addr, t.readCell addr = s.readCell addr)
      ∧ (∀ addr, storeOperand i = some addr
          → ∀ b, s.cellIndex b ≠ s.cellIndex (s.effAddr addr) → t.readCell b = s.readCell b)
      ∧ t.params = s.params ∧ (∀ k, t.slotAt k = s.slotAt k)
      ∧ (regWritten i = none ∨ storeOperand i = none)
      ∧ (i ≠ .hlt → t.fault = s.fault → t.running = s.running)

/-- 10_state.md section 2 (the table is marked derived by the spec): what each instruction reads. -/
def Obligations.OnlyTheNamedRegistersAreRead : Prop :=
  ∀ (i : Instr) (s s' : State), s.agreeOn (regsRead i) s' → s.fault = none
    → ∃ t t', exec i s = .next t ∧ exec i s' = .next t'
      ∧ t'.pc = t.pc ∧ t'.running = t.running ∧ t'.fault = t.fault ∧ t'.dmem = t.dmem ∧ t'.pmem = t.pmem
      ∧ (t.fault = none → ∀ rd, regWritten i = some rd → t'.regs.get rd = t.regs.get rd)

/-- 20_memory.md section 1; negative addresses by the spec's decision D10. -/
def Obligations.AddressReductionIsTheLeastResidue : Prop :=
  (∀ (s : State) (addr : Int), 1 ≤ s.params.dcap
      → s.cellIndex addr < s.params.dcap ∧ (s.params.dcap : Int) ∣ addr - s.cellIndex addr)
    ∧ (∀ s : State, s.params.dcap = 27 → s.cellIndex 28 = 1 ∧ s.cellIndex (-1) = 26)

/-- R31, the direct and the indirect forms. `State.valuesFit` always holds with unbounded words; with finite words it
holds along every run (`EveryStepKeepsValuesInRange`). -/
def Obligations.AddressesOutOfRangeRaiseNothing : Prop :=
  (∀ (s : State) (r : Reg) (a : Int), s.valuesFit = true → (a < 0 ∨ (s.params.dcap : Int) ≤ a)
      → ∀ i ∈ [Instr.ldAddr r a, .stAddr r a],
          ∃ t, exec i s = .next t ∧ t.fault = s.fault ∧ t.running = s.running ∧ t.pc = s.pc + 1)
    ∧ ∀ (s : State) (r ri : Reg), s.valuesFit = true
      → (s.regs.get ri < 0 ∨ (s.params.dcap : Int) ≤ s.regs.get ri)
      → ∀ i ∈ [Instr.ldInd r ri, .stInd r ri],
          ∃ t, exec i s = .next t ∧ t.fault = s.fault ∧ t.running = s.running ∧ t.pc = s.pc + 1

/-- 20_memory.md section 4 (marked derived) and the source's indirect-addressing property. -/
def Obligations.LoadAfterStoreReturnsTheStoredValue : Prop :=
  (∀ (s t u : State) (rs rd : Reg) (a b : Int), s.inv = true → s.fault = none
      → exec (.stAddr rs a) s = .next t → exec (.ldAddr rd b) t = .next u → u.fault = none
      → u.regs.get rd = if (s.params.dcap : Int) ∣ b - a then s.regs.get rs else s.readCell b)
    ∧ ∀ (s t u : State) (rs rd ri : Reg), s.inv = true → s.fault = none
      → exec (.stInd rs ri) s = .next t → exec (.ldInd rd ri) t = .next u → u.fault = none
      → u.regs.get rd = s.regs.get rs

/-- 20_memory.md section 4: a load returns the most recent store (marked derived by the spec). -/
def Obligations.CellKeepsItsValueUntilStoredTo : Prop :=
  ∀ (n : Nat) (s : State) (k : Nat), s.inv = true → (∀ m, m < n → ¬ (s.runFor m).storesTo k)
    → memRead 0 (s.runFor n).dmem k = memRead 0 s.dmem k

/-- 70_reset_and_hazards.md section 2; `pc` and `running` by the spec's decision D14. `fits` always holds with
unbounded words. For finite words the statement says nothing of an image that does not fit: what load does with one is
the model's notes/assumptions/5.md (DESIGN CHOICE), stated by `LoadTooLargeFaultsAndInstallsNothing`. -/
def Obligations.LoadInstallsProgramAndData : Prop :=
  ∀ (s : State) (prog : List Slot) (data : List Int), s.fault = none
    → prog.length ≤ s.params.pcap → data.length ≤ s.params.dcap
    → (∀ sl ∈ prog, fits s.params sl.val = true) → (∀ v ∈ data, fits s.params v = true)
    → (∀ k, (s.load prog data).slotAt k = prog.getD k Slot.empty)
      ∧ (∀ k, memRead 0 (s.load prog data).dmem k = data.getD k 0)
      ∧ (s.load prog data).pc = 0 ∧ (s.load prog data).running = true ∧ (s.load prog data).regs = s.regs
      ∧ (s.load prog data).fault = none ∧ (s.load prog data).params = s.params

/-- 60_exceptions.md section 2; the data case and the order are the spec's decisions D15 and D22. The third clause,
finite words only, rests on 00_scope.md section 2 and D23, and its order and recorded value are the model's
notes/assumptions/5.md (DESIGN CHOICE). -/
def Obligations.LoadTooLargeFaultsAndInstallsNothing : Prop :=
  ∀ (s : State) (prog : List Slot) (data : List Int), s.fault = none
    → (s.params.pcap < prog.length
        → s.load prog data = { s with fault := some (.programTooLarge prog.length), running := false })
      ∧ (prog.length ≤ s.params.pcap → s.params.dcap < data.length
        → s.load prog data = { s with fault := some (.dataImageTooLarge data.length), running := false })
      ∧ (prog.length ≤ s.params.pcap → data.length ≤ s.params.dcap
        → ((∃ sl ∈ prog, fits s.params sl.val = false) ∨ ∃ v ∈ data, fits s.params v = false)
        → s.load prog data = { s with fault := some (.wordOverflow s.pc), running := false })

/-- 40_execution_cycle.md section 4; the test before the first step is the spec's decision D20. -/
def Obligations.RunReturnsInAtMostOneState : Prop :=
  (∀ s t u : State, s.RunReturns t → s.RunReturns u → t = u)
    ∧ (∀ s : State, s.running = false ∨ s.fault ≠ none → s.RunReturns s)
    ∧ ∀ s t : State, s.RunReturns t → t.normalEnd = true ∨ t.faultedEnd = true

/-- 47_word_codec.md: the digit extraction, most significant trit first (the non-negative residue is marked derived). -/
def Obligations.CodecEncodesDigitByDigit : Prop :=
  (∀ (w : Nat) (v : Int), (toTrits v w).length = w)
    ∧ (∀ v : Int, tritValue (lowTrit v) = Int.emod (v + 1) 3 - 1 ∧ (3 : Int) ∣ v - tritValue (lowTrit v))
    ∧ ∀ (w : Nat) (v : Int), toTrits v (w + 1) = toTrits ((v - tritValue (lowTrit v)) / 3) w ++ [lowTrit v]

/-- 47_word_codec.md: the round trip (its second half marked derived). -/
def Obligations.CodecRoundTrips : Prop :=
  (∀ (w : Nat) (v : Int), 2 * v.natAbs ≤ 3 ^ w - 1 → ofTrits (toTrits v w) = v)
    ∧ (∀ ts : List Trit, toTrits (ofTrits ts) ts.length = ts)
    ∧ ∀ ts : List Trit, 2 * (ofTrits ts).natAbs ≤ 3 ^ ts.length - 1

/-- 47_word_codec.md: the truncation to the low-order trits (its exact form marked derived). -/
def Obligations.CodecWrapsToTheLowTrits : Prop :=
  (∀ (w : Nat) (v : Int), (3 ^ w : Int) ∣ v - ofTrits (toTrits v w)
      ∧ 2 * (ofTrits (toTrits v w)).natAbs ≤ 3 ^ w - 1)
    ∧ ∀ (w : Nat) (v v' : Int), (3 ^ w : Int) ∣ v - v' → toTrits v w = toTrits v' w

/-- 47_word_codec.md; the refusals are the spec's decision D24. -/
def Obligations.CodecAcceptsExactlyItsInputs : Prop :=
  (∀ (v : Int) (w : Nat), fromInteger v w = .ok (toTrits v w))
    ∧ (∀ v w : Int, w < 0 → fromInteger v w = .error (.codecNegativeWidth w))
    ∧ (∀ ts : List Trit, toInteger (ts.map tritValue) = .ok (ofTrits ts))
    ∧ ∀ ds : List Int, (∃ d ∈ ds, d < -1 ∨ 1 < d) → ∃ e, toInteger ds = .error (.codecNotATrit e)
end

