-- ==== Sys2Proof/Laws/PerInstr.lean ====
section
/-!
SUPPORT. The per-instruction family `EncodesLegalSlot`: the slot the encoder gives an instruction has `V` set and none of
the defects of 30_encoding.md R62. One lemma for each constructor.
-/

namespace Sys2Proof.Laws

open Sys2Proof

/-- The encoding of `i` is a legal slot with `V = 1`. -/
def EncodesLegalSlot.Statement (i : Instr) : Prop :=
  (encode i).fields.valid = true ∧ (encode i).fields.wellFormed = true

/-! ### One lemma for each shape of encoding -/

theorem legal_f0 (op : BitVec 5) (h : Format.ofOpcode op.toNat = some .f0) :
    (encodeF0 op).fields.valid = true ∧ (encodeF0 op).fields.wellFormed = true := by
  revert h; revert op; decide

theorem legal_fr (op : BitVec 5) (r : Reg) (h : Format.ofOpcode op.toNat = some .fr) :
    (encodeFR op r).fields.valid = true ∧ (encodeFR op r).fields.wellFormed = true := by
  revert h; revert op; cases r <;> decide

theorem legal_regReg (op : BitVec 5) (r q : Reg) (h : Format.ofOpcode op.toNat = some .frs) :
    (encodeRegReg op r q).fields.valid = true ∧ (encodeRegReg op r q).fields.wellFormed = true := by
  revert h; revert op; cases r <;> cases q <;> decide

theorem legal_regInd (op : BitVec 5) (r q : Reg) (h : Format.ofOpcode op.toNat = some .frm) :
    (encodeRegInd op r q).fields.valid = true ∧ (encodeRegInd op r q).fields.wellFormed = true := by
  revert h; revert op; cases r <;> cases q <;> decide

/-- The integer field of a slot of kind integer is no defect, whatever its value. -/
theorem wellFormed_val (f : SlotFields) (n : Int) (hk : f.kind = 2) (hv : f.valid = true)
    (h : f.wellFormed = true) : ({ f with val := n } : SlotFields).wellFormed = true := by
  simp only [SlotFields.wellFormed, SlotFields.defects, hv, hk] at h ⊢
  cases hF : Format.ofOpcode f.op.toNat with
  | none => simp [hF] at h
  | some F => simpa [hF] using h

theorem legal_regVal (op : BitVec 5) (r : Reg) (n : Int)
    (h : (encodeRegVal op r 0).fields.valid = true ∧ (encodeRegVal op r 0).fields.wellFormed = true
      ∧ (encodeRegVal op r 0).fields.kind = 2) :
    (encodeRegVal op r n).fields.valid = true ∧ (encodeRegVal op r n).fields.wellFormed = true :=
  ⟨h.1, wellFormed_val _ n h.2.2 h.1 h.2.1⟩

theorem legal_ft (op : BitVec 5) (n : Int)
    (h : (encodeFT op 0).fields.valid = true ∧ (encodeFT op 0).fields.wellFormed = true
      ∧ (encodeFT op 0).fields.kind = 2) :
    (encodeFT op n).fields.valid = true ∧ (encodeFT op n).fields.wellFormed = true :=
  ⟨h.1, wellFormed_val _ n h.2.2 h.1 h.2.1⟩

/-! ### One lemma for each instruction -/

theorem EncodesLegalSlot.nop : EncodesLegalSlot.Statement .nop :=
  legal_f0 _ (by decide)

theorem EncodesLegalSlot.hlt : EncodesLegalSlot.Statement .hlt :=
  legal_f0 _ (by decide)

theorem EncodesLegalSlot.movReg (rd rs : Reg) : EncodesLegalSlot.Statement (.movReg rd rs) :=
  legal_regReg _ rd rs (by decide)

theorem EncodesLegalSlot.movImm (rd : Reg) (n : Int) : EncodesLegalSlot.Statement (.movImm rd n) :=
  legal_regVal _ rd n (by cases rd <;> decide)

theorem EncodesLegalSlot.addReg (rd rs : Reg) : EncodesLegalSlot.Statement (.addReg rd rs) :=
  legal_regReg _ rd rs (by decide)

theorem EncodesLegalSlot.addImm (rd : Reg) (n : Int) : EncodesLegalSlot.Statement (.addImm rd n) :=
  legal_regVal _ rd n (by cases rd <;> decide)

theorem EncodesLegalSlot.subReg (rd rs : Reg) : EncodesLegalSlot.Statement (.subReg rd rs) :=
  legal_regReg _ rd rs (by decide)

theorem EncodesLegalSlot.subImm (rd : Reg) (n : Int) : EncodesLegalSlot.Statement (.subImm rd n) :=
  legal_regVal _ rd n (by cases rd <;> decide)

theorem EncodesLegalSlot.mulReg (rd rs : Reg) : EncodesLegalSlot.Statement (.mulReg rd rs) :=
  legal_regReg _ rd rs (by decide)

theorem EncodesLegalSlot.mulImm (rd : Reg) (n : Int) : EncodesLegalSlot.Statement (.mulImm rd n) :=
  legal_regVal _ rd n (by cases rd <;> decide)

theorem EncodesLegalSlot.divReg (rd rs : Reg) : EncodesLegalSlot.Statement (.divReg rd rs) :=
  legal_regReg _ rd rs (by decide)

theorem EncodesLegalSlot.divImm (rd : Reg) (n : Int) : EncodesLegalSlot.Statement (.divImm rd n) :=
  legal_regVal _ rd n (by cases rd <;> decide)

theorem EncodesLegalSlot.andReg (rd rs : Reg) : EncodesLegalSlot.Statement (.andReg rd rs) :=
  legal_regReg _ rd rs (by decide)

theorem EncodesLegalSlot.andImm (rd : Reg) (n : Int) : EncodesLegalSlot.Statement (.andImm rd n) :=
  legal_regVal _ rd n (by cases rd <;> decide)

theorem EncodesLegalSlot.orReg (rd rs : Reg) : EncodesLegalSlot.Statement (.orReg rd rs) :=
  legal_regReg _ rd rs (by decide)

theorem EncodesLegalSlot.orImm (rd : Reg) (n : Int) : EncodesLegalSlot.Statement (.orImm rd n) :=
  legal_regVal _ rd n (by cases rd <;> decide)

theorem EncodesLegalSlot.notReg (rd : Reg) : EncodesLegalSlot.Statement (.notReg rd) :=
  legal_fr _ rd (by decide)

theorem EncodesLegalSlot.negReg (rd : Reg) : EncodesLegalSlot.Statement (.negReg rd) :=
  legal_fr _ rd (by decide)

theorem EncodesLegalSlot.signReg (rd : Reg) : EncodesLegalSlot.Statement (.signReg rd) :=
  legal_fr _ rd (by decide)

theorem EncodesLegalSlot.absReg (rd : Reg) : EncodesLegalSlot.Statement (.absReg rd) :=
  legal_fr _ rd (by decide)

theorem EncodesLegalSlot.shlReg (rd : Reg) : EncodesLegalSlot.Statement (.shlReg rd) :=
  legal_fr _ rd (by decide)

theorem EncodesLegalSlot.shrReg (rd : Reg) : EncodesLegalSlot.Statement (.shrReg rd) :=
  legal_fr _ rd (by decide)

theorem EncodesLegalSlot.cmpReg (rd rs : Reg) : EncodesLegalSlot.Statement (.cmpReg rd rs) :=
  legal_regReg _ rd rs (by decide)

theorem EncodesLegalSlot.cmpImm (rd : Reg) (n : Int) : EncodesLegalSlot.Statement (.cmpImm rd n) :=
  legal_regVal _ rd n (by cases rd <;> decide)

theorem EncodesLegalSlot.jmp (t : Int) : EncodesLegalSlot.Statement (.jmp t) :=
  legal_ft _ t (by decide)

theorem EncodesLegalSlot.jz (rs : Reg) (t : Int) : EncodesLegalSlot.Statement (.jz rs t) :=
  legal_regVal _ rs t (by cases rs <;> decide)

theorem EncodesLegalSlot.jn (rs : Reg) (t : Int) : EncodesLegalSlot.Statement (.jn rs t) :=
  legal_regVal _ rs t (by cases rs <;> decide)

theorem EncodesLegalSlot.jp (rs : Reg) (t : Int) : EncodesLegalSlot.Statement (.jp rs t) :=
  legal_regVal _ rs t (by cases rs <;> decide)

theorem EncodesLegalSlot.ldAddr (rd : Reg) (addr : Int) : EncodesLegalSlot.Statement (.ldAddr rd addr) :=
  legal_regVal _ rd addr (by cases rd <;> decide)

theorem EncodesLegalSlot.ldInd (rd ri : Reg) : EncodesLegalSlot.Statement (.ldInd rd ri) :=
  legal_regInd _ rd ri (by decide)

theorem EncodesLegalSlot.stAddr (rs : Reg) (addr : Int) : EncodesLegalSlot.Statement (.stAddr rs addr) :=
  legal_regVal _ rs addr (by cases rs <;> decide)

theorem EncodesLegalSlot.stInd (rs ri : Reg) : EncodesLegalSlot.Statement (.stInd rs ri) :=
  legal_regInd _ rs ri (by decide)

theorem EncodesLegalSlot.lea (rd : Reg) (addr : Int) : EncodesLegalSlot.Statement (.lea rd addr) :=
  legal_regVal _ rd addr (by cases rd <;> decide)

end Sys2Proof.Laws
end

