-- ==== Sys2Proof/Tests/Slice0.lean ====
section
/-!
SUPPORT. Small tests on fixed values, each expected value taken from the spec (the vector or rule a comment names), and
for every statement with hypotheses a witness that something meets them.
-/

namespace Sys2Proof.Tests

open Sys2Proof Sys2Proof.Machine

/-! ### Helpers -/

/-- The reset machine with registers `a`, `b`, `c` and program counter `pc`. -/
def machine (a b c pc : Int) : State :=
  { State.reset with regs := { a := a, b := b, c := c }, pc := pc }

/-- The state an instruction leads to; the state itself where it leads to none. -/
def after (i : Instr) (s : State) : State :=
  match exec i s with
  | .next t => t
  | .fault _ => s
  | .refused _ => s

/-- Registers, program counter, running flag and fault state, as the vectors list them. -/
def shown (s : State) : Int × Int × Int × Int × Bool × Option FaultKind :=
  (s.regs.a, s.regs.b, s.regs.c, s.pc, s.running, s.fault)

/-- What a slot with header `h` and integer `v` does at `pc` of `s`. -/
def ran (s : State) (h : BitVec 12) (v : Int) : Int × Int × Int × Int × Bool × Option FaultKind :=
  shown (s.placeAtPc { h := h, val := v }).hostStep

/-! ### Legality (30_encoding.md R62, 95_test_vectors.md V8) -/

theorem test_defect_emptyNotZero :
    (Slot.fields { h := 0x001#12, val := 0 }).defects = [.emptyNotZero]
      ∧ (Slot.fields { h := 0x000#12, val := 5 }).defects = [.emptyNotZero] := by decide

theorem test_defect_reservedOpcode :
    (Slot.fields { h := 0x817#12, val := 0 }).defects = [.reservedOpcode]
      ∧ (Slot.fields { h := 0x81F#12, val := 0 }).defects = [.reservedOpcode] := by decide

theorem test_defect_kindNotAdmitted :
    (Slot.fields { h := 0x982#12, val := 0 }).defects = [.kindNotAdmitted]
      ∧ (Slot.fields { h := 0x894#12, val := 0 }).defects = [.kindNotAdmitted]
      ∧ (Slot.fields { h := 0x996#12, val := 0 }).defects = [.kindNotAdmitted] := by decide

theorem test_defect_reservedRegister :
    (Slot.fields { h := 0xE82#12, val := 0 }).defects = [.reservedRegister]
      ∧ (Slot.fields { h := 0x8E2#12, val := 0 }).defects = [.reservedRegister] := by decide

theorem test_defect_unusedRegister :
    (Slot.fields { h := 0x930#12, val := 4 }).defects = [.unusedRegister] := by decide

theorem test_defect_unusedVal :
    (Slot.fields { h := 0x800#12, val := 1 }).defects = [.unusedVal]
      ∧ (Slot.fields { h := 0xB94#12, val := 1 }).defects = [.unusedVal] := by decide

theorem test_params_refused :
    Params.wellFormed { pcap := 0, dcap := 1, wordTrits := none } = false
      ∧ Params.wellFormed { pcap := 1, dcap := 0, wordTrits := none } = false := by decide

theorem test_tritCode_refused :
    TritCode.wellFormed { ofNeg := 0, ofZero := 1, ofPos := 1 } = false
      ∧ TritCode.wellFormed { ofNeg := 2, ofZero := 0, ofPos := 1 } = true := by decide

/-! ### Decoding: the rows of 30_encoding.md R60 with their fields written in, one slot for each constructor -/

theorem test_decode_move :
    decode { h := 0x800#12, val := 0 } = .instr .nop
      ∧ decode { h := 0x801#12, val := 0 } = .instr .hlt
      ∧ decode { h := 0b101010000010#12, val := 0 } = .instr (.movReg .a .b)
      ∧ decode { h := 0b100101000010#12, val := -40 } = .instr (.movImm .c (-40)) := by decide

theorem test_decode_arithmetic :
    decode { h := 0xA83#12, val := 0 } = .instr (.addReg .a .b)
      ∧ decode { h := 0x903#12, val := -10 } = .instr (.addImm .a (-10))
      ∧ decode { h := 0b110010100100#12, val := 0 } = .instr (.subReg .b .c)
      ∧ decode { h := 0x904#12, val := 1 } = .instr (.subImm .a 1)
      ∧ decode { h := 0xA85#12, val := 0 } = .instr (.mulReg .a .b)
      ∧ decode { h := 0b100101000101#12, val := 3 } = .instr (.mulImm .c 3)
      ∧ decode { h := 0xCA6#12, val := 0 } = .instr (.divReg .b .c)
      ∧ decode { h := 0x906#12, val := -4 } = .instr (.divImm .a (-4)) := by decide

theorem test_decode_logic :
    decode { h := 0xA87#12, val := 0 } = .instr (.andReg .a .b)
      ∧ decode { h := 0x907#12, val := 2 } = .instr (.andImm .a 2)
      ∧ decode { h := 0x8A8#12, val := 0 } = .instr (.orReg .b .a)
      ∧ decode { h := 0x908#12, val := -7 } = .instr (.orImm .a (-7))
      ∧ decode { h := 0xA8F#12, val := 0 } = .instr (.cmpReg .a .b)
      ∧ decode { h := 0x94F#12, val := 2 } = .instr (.cmpImm .c 2) := by decide

theorem test_decode_unary :
    decode { h := 0x849#12, val := 0 } = .instr (.notReg .c)
      ∧ decode { h := 0x82A#12, val := 0 } = .instr (.negReg .b)
      ∧ decode { h := 0x80B#12, val := 0 } = .instr (.signReg .a)
      ∧ decode { h := 0x82C#12, val := 0 } = .instr (.absReg .b)
      ∧ decode { h := 0x84D#12, val := 0 } = .instr (.shlReg .c)
      ∧ decode { h := 0x84E#12, val := 0 } = .instr (.shrReg .c)
      ∧ decode { h := 0x909#12, val := 0 } = .illegal := by decide

theorem test_decode_control :
    decode { h := 0x910#12, val := -3 } = .instr (.jmp (-3))
      ∧ decode { h := 0x911#12, val := 9 } = .instr (.jz .a 9)
      ∧ decode { h := 0x932#12, val := 9 } = .instr (.jn .b 9)
      ∧ decode { h := 0x953#12, val := 9 } = .instr (.jp .c 9)
      ∧ decode { h := 0x810#12, val := 0 } = .illegal
      ∧ decode { h := 0x9F1#12, val := 2 } = .illegal := by decide

theorem test_decode_access :
    decode { h := 0x954#12, val := 1 } = .instr (.ldAddr .c 1)
      ∧ decode { h := 0xB94#12, val := 0 } = .instr (.ldInd .a .b)
      ∧ decode { h := 0x915#12, val := 28 } = .instr (.stAddr .a 28)
      ∧ decode { h := 0xBD5#12, val := 0 } = .instr (.stInd .c .b)
      ∧ decode { h := 0x916#12, val := 40 } = .instr (.lea .a 40)
      ∧ decode { h := 0x000#12, val := 0 } = .empty := by decide

/-- Rows of the opcode table as the host numbers them: 16 bits hold the 12-bit header. -/
theorem test_decodeTableWord :
    decodeTableWord 16 0x801 = some .hlt ∧ decodeTableWord 16 0x994 = some (.ldInd .a .a)
      ∧ decodeTableWord 16 0x916 = some (.lea .a 0) ∧ decodeTableWord 16 0x000 = none
      ∧ decodeTableWord 16 0x817 = none := by decide

theorem test_encode : encode (.divReg .b .c) = { h := 0xCA6#12, val := 0 }
    ∧ encode (.stInd .a .b) = { h := 0xB95#12, val := 0 } ∧ encode (.movImm .b 28) = { h := 0x922#12, val := 28 } := by
  decide

/-! ### Instructions: 95_test_vectors.md V4 (I), V5 (J), V6 (M), each one step of a slot at slot index 3 -/

theorem test_nop_I1 : ran (machine 1 2 3 3) 0x800#12 0 = (1, 2, 3, 4, true, none) := by decide
theorem test_hlt_I2 : ran (machine 1 2 3 4) 0x801#12 0 = (1, 2, 3, 5, false, none) := by decide
theorem test_mov_I3 : ran (machine 0 9 0 3) 0xA82#12 0 = (9, 9, 0, 4, true, none) := by decide
theorem test_mov_I5 : ran (machine 0 0 0 3) 0x942#12 (-40) = (0, 0, -40, 4, true, none) := by decide
theorem test_add_I6 : ran (machine 4 5 0 3) 0xA83#12 0 = (9, 5, 0, 4, true, none) := by decide
theorem test_add_I7 : ran (machine 4 0 0 3) 0x903#12 (-10) = (-6, 0, 0, 4, true, none) := by decide
theorem test_sub_I9 : ran (machine 4 5 0 3) 0xA84#12 0 = (-1, 5, 0, 4, true, none) := by decide
theorem test_sub_R104 : ran (machine (-1) 0 0 3) 0x904#12 1 = (-2, 0, 0, 4, true, none) := by decide
theorem test_mul_I11 : ran (machine (-3) 4 0 3) 0xA85#12 0 = (-12, 4, 0, 4, true, none) := by decide
theorem test_mul_V2 : ran (machine (3 ^ 20) 0 0 3) 0x905#12 (3 ^ 20) = (3 ^ 40, 0, 0, 4, true, none) := by decide
theorem test_div_I12 : ran (machine 0 (-7) 2 3) 0xCA6#12 0 = (0, -3, 2, 4, true, none) := by decide
theorem test_div_I13 : ran (machine 9 0 0 3) 0x906#12 0 = (0, 0, 0, 4, true, none) := by decide
theorem test_and_I15 : ran (machine 1 0 0 3) 0xA87#12 0 = (0, 0, 0, 4, true, none) := by decide
theorem test_and_I16 : ran (machine 5 0 0 3) 0x907#12 2 = (2, 0, 0, 4, true, none) := by decide
theorem test_or_I17 : ran (machine (-1) 0 0 3) 0xA88#12 0 = (0, 0, 0, 4, true, none) := by decide
theorem test_or_I18 : ran (machine (-5) 0 0 3) 0x908#12 (-7) = (-5, 0, 0, 4, true, none) := by decide
theorem test_not_I19 : ran (machine 0 0 1 3) 0x849#12 0 = (0, 0, -1, 4, true, none) := by decide
theorem test_neg_I20 : ran (machine 0 (-27) 0 3) 0x82A#12 0 = (0, 27, 0, 4, true, none) := by decide
theorem test_sign_I21 : ran (machine (-42) 0 0 3) 0x80B#12 0 = (-1, 0, 0, 4, true, none) := by decide
theorem test_abs_I22 : ran (machine 0 (-4) 0 3) 0x82C#12 0 = (0, 4, 0, 4, true, none) := by decide
theorem test_shl_I23 : ran (machine (-2) 0 0 3) 0x80D#12 0 = (-6, 0, 0, 4, true, none) := by decide
theorem test_shr_I24 : ran (machine 0 0 (-7) 3) 0x84E#12 0 = (0, 0, -2, 4, true, none) := by decide
theorem test_cmp_I25 : ran (machine 2 5 0 3) 0xA8F#12 0 = (-1, 5, 0, 4, true, none) := by decide
theorem test_cmp_I26 : ran (machine 0 0 5 3) 0x94F#12 2 = (0, 0, 1, 4, true, none) := by decide
theorem test_jmp_J1 : ran (machine 0 0 0 3) 0x910#12 10 = (0, 0, 0, 10, true, none) := by decide
theorem test_jmp_J4 : ran (machine 0 0 0 3) 0x910#12 (-4) = (0, 0, 0, -4, true, none) := by decide
theorem test_jz_J5 : ran (machine 0 0 0 3) 0x911#12 9 = (0, 0, 0, 9, true, none) := by decide
theorem test_jz_J7 : ran (machine (-1) 0 0 3) 0x911#12 9 = (-1, 0, 0, 4, true, none) := by decide
theorem test_jn_J8 : ran (machine 0 (-5) 0 3) 0x932#12 9 = (0, -5, 0, 9, true, none) := by decide
theorem test_jn_J9 : ran (machine 0 0 0 3) 0x932#12 9 = (0, 0, 0, 4, true, none) := by decide
theorem test_jp_J11 : ran (machine 0 0 5 3) 0x953#12 9 = (0, 0, 5, 9, true, none) := by decide
theorem test_jp_J12 : ran (machine 0 0 0 3) 0x953#12 9 = (0, 0, 0, 4, true, none) := by decide

theorem test_ld_M5 : ran { machine 0 0 0 3 with dmem := [(26, 8)] } 0x914#12 (-28) = (8, 0, 0, 4, true, none) := by
  decide
theorem test_ld_M8 : ran { machine 3 0 0 3 with dmem := [(3, -2)] } 0x994#12 0 = (-2, 0, 0, 4, true, none) := by
  decide
theorem test_st_M1 : (after (.stAddr .a 28) (machine 13 0 0 3)).dmem = [(1, 13)] := by decide
theorem test_st_M4 : (after (.stInd .c .b) (machine 0 (-1) 8 3)).dmem = [(26, 8)] := by decide
theorem test_lea_M9 : ran (machine 0 0 0 3) 0x916#12 55 = (55, 0, 0, 4, true, none) := by decide

/-! ### Step, load and faults: 95_test_vectors.md V9 -/

theorem test_step_S2 : shown (machine 0 0 0 27).hostStep = (0, 0, 0, 27, false, none) := by decide
theorem test_step_S3 : shown (machine 0 0 0 (-1)).hostStep = (0, 0, 0, -1, false, none) := by decide
theorem test_step_S4 : shown (machine 0 0 0 5).hostStep = (0, 0, 0, 5, false, none) := by decide
theorem test_step_S5 : ran { machine 0 0 0 3 with running := false } 0x800#12 0 = (0, 0, 0, 4, false, none) := by decide
theorem test_step_S7 :
    ran (machine 2 0 0 1) 0x817#12 0 = (2, 0, 0, 1, false, some (.illegalInstruction 1)) := by decide

/-- The machine with the given capacities and, where it has one, the given word length. -/
def sized (pcap dcap : Nat) (trits : Option Nat) : State :=
  State.fresh { pcap := pcap, dcap := dcap, wordTrits := trits }

/-- `NOP` as a slot. -/
def nopSlot : Slot := { h := 0x800#12, val := 0 }

theorem test_load_S9 :
    (sized 2 27 none).load [nopSlot, nopSlot, nopSlot] []
      = { sized 2 27 none with fault := some (.programTooLarge 3), running := false } := by decide
theorem test_load_S11 :
    (sized 27 3 none).load [nopSlot] [1, 2, 3, 4]
      = { sized 27 3 none with fault := some (.dataImageTooLarge 4), running := false } := by decide
theorem test_load_S12 :
    ((sized 1 1 none).load [nopSlot, nopSlot] [1, 2]).fault = some (.programTooLarge 2) := by decide
theorem test_load_value_beyond_word :
    (sized 2 3 (some 2)).load [nopSlot] [4, -4, 5]
      = { sized 2 3 (some 2) with fault := some (.wordOverflow 0), running := false } := by decide
theorem test_load_slot_beyond_word :
    ((sized 2 3 (some 2)).load [encode (.movImm .a (-5))] []).fault = some (.wordOverflow 0)
      ∧ ((sized 2 3 (some 2)).load [encode (.movImm .a (-4))] [4]).fault = none := by decide
theorem test_load_P4 : (State.reset.load [nopSlot] [-7, 2, 0]).dmem = [(0, -7), (1, 2)] := by decide
theorem test_st_M6 :
    (after (.stAddr .a 12) { sized 27 5 none with regs := { a := 4, b := 0, c := 0 } }).dmem = [(2, 4)] := by decide
theorem test_overflow_S15 :
    shown (after (.addImm .a 1) { sized 27 27 (some 2) with regs := { a := 4, b := 0, c := 0 }, pc := 1 })
      = (4, 0, 0, 1, false, some (.wordOverflow 1)) := by decide
theorem test_overflow_S16 :
    shown (after (.negReg .a) { sized 27 27 (some 2) with regs := { a := 4, b := 0, c := 0 }, pc := 1 })
      = (-4, 0, 0, 2, true, none) := by decide
theorem test_fetchWord : shown (State.reset.withFetchWord 16 0x801).hostStep = (0, 0, 0, 1, false, none) := by decide

/-! ### Codec: 95_test_vectors.md V7 -/

theorem test_codec_CV6 : toTrits 5 3 = [.pos, .neg, .neg] := by decide
theorem test_codec_CV12 : toTrits 100 5 = [.pos, .pos, .neg, .zero, .pos] := by decide
theorem test_codec_CV14 : toTrits 14 3 = [.neg, .neg, .neg] ∧ ofTrits [.neg, .neg, .neg] = -13 := by decide
theorem test_codec_CV21 : ofTrits [.pos, .zero, .neg] = 8 := by decide
theorem test_codec_CV22 :
    fromInteger 5 (-1) = .error (.codecNegativeWidth (-1)) ∧ toInteger [2, 0] = .error (.codecNotATrit 2) :=
  ⟨rfl, rfl⟩

/-! ### Witnesses: something meets the hypotheses of each statement that has any -/

/-- The machine of the spec about to run `i` at slot 0. -/
def about (i : Instr) : State :=
  State.reset.placeAtPc (encode i)

/-- A machine whose words have two trits (values −4 to 4), holding 4, −4 and 1, about to run `i`. -/
def small (i : Instr) : State :=
  ({ sized 27 27 (some 2) with regs := { a := 4, b := -4, c := 1 } } : State).placeAtPc (encode i)

theorem witness_DecodedSlotIsTheEncoding : decode { h := 0xA82#12, val := 0 } = .instr (.movReg .a .b) := by decide

theorem witness_StepRunsTheDecodedInstruction :
    (about .nop).fault = none ∧ 0 ≤ (about .nop).pc ∧ (about .nop).pc < (about .nop).params.pcap
      ∧ decode ((about .nop).slotAt (about .nop).pc.toNat) = .instr .nop := by decide

theorem witness_TableWordRunsAtTheNextStep :
    State.reset.inv = true ∧ decodeTableWord 16 0x902 = some (.movImm .a 0) := by decide

theorem witness_StepOutsideProgramMemoryHalts :
    ((machine 0 0 0 27).fault = none ∧ ((machine 0 0 0 27).params.pcap : Int) ≤ (machine 0 0 0 27).pc)
      ∧ ((machine 0 0 0 (-1)).fault = none ∧ (machine 0 0 0 (-1)).pc < 0) := by decide

theorem witness_StepAtAnEmptySlotHalts :
    (machine 0 0 0 26).fault = none ∧ 0 ≤ (machine 0 0 0 26).pc ∧ (machine 0 0 0 26).pc < (machine 0 0 0 26).params.pcap
      ∧ (machine 0 0 0 26).slotAt (machine 0 0 0 26).pc.toNat = Slot.empty := by decide

/-- The reset machine with an illegal slot at slot 0. -/
def illegalMachine : State :=
  State.reset.placeAtPc { h := 0x817#12, val := 0 }

theorem witness_StepAtAnIllegalSlotFaults :
    illegalMachine.fault = none ∧ 0 ≤ illegalMachine.pc ∧ illegalMachine.pc < illegalMachine.params.pcap
      ∧ (illegalMachine.slotAt illegalMachine.pc.toNat).fields.wellFormed = false := by decide

theorem witness_FaultedMachineNeverChanges :
    illegalMachine.hostStep.fault = some (.illegalInstruction 0) := by decide

theorem witness_StepIgnoresAndNeverSetsRunning :
    (∃ t u, step (about .nop) = .next t ∧ step { about .nop with running := false } = .next u ∧ t.running = true)
      ∧ decode (({ about .nop with running := false } : State).slotAt 0) = .instr .nop
      ∧ (({ machine 0 0 0 27 with running := false } : State).fault = none) :=
  ⟨⟨_, _, rfl, rfl, rfl⟩, by decide, rfl⟩

theorem witness_PcAdvancesUnlessAJumpOverridesIt :
    (about (.jz .a 9)).fault = none ∧ (about (.jz .a 9)).params.wordTrits = none ∧ 0 ≤ (about (.jz .a 9)).pc
      ∧ (about (.jz .a 9)).pc < (about (.jz .a 9)).params.pcap
      ∧ decode ((about (.jz .a 9)).slotAt (about (.jz .a 9)).pc.toNat) = .instr (.jz .a 9) := by decide

theorem witness_StepWritesNoProgramSlot : ∃ t, step (about (.stAddr .a 28)) = .next t := ⟨_, rfl⟩

theorem witness_FaultsArePrecise :
    (illegalMachine.fault = none ∧ ∃ t, step illegalMachine = .next t ∧ t.fault = some (.illegalInstruction 0))
      ∧ (small (.addImm .a 1)).fault = none
      ∧ ∃ t, step (small (.addImm .a 1)) = .next t ∧ t.fault = some (.wordOverflow 0) :=
  ⟨⟨rfl, _, rfl, rfl⟩, rfl, _, rfl, rfl⟩

theorem witness_FiniteWordsComputeTheSameOrFault :
    ((small (.addImm .a 1)).inv = true ∧ ∃ t u, exec (.addImm .a 1) (small (.addImm .a 1)) = .next t
        ∧ exec (.addImm .a 1) (small (.addImm .a 1)).unbounded = .next u ∧ t.fault = some (.wordOverflow 0))
      ∧ (small .nop).inv = true ∧ ∃ t u, exec (.stAddr .a 0) (small .nop) = .next t
        ∧ exec (.stAddr .a 0) (small .nop).unbounded = .next u ∧ t.fault = none :=
  ⟨⟨by decide, _, _, rfl, rfl, rfl⟩, by decide, _, _, rfl, rfl, rfl⟩

theorem witness_WordRangeIsSymmetric :
    (small .nop).params.wordTrits = some 2 ∧ State.reset.params.wordTrits = none := by decide

theorem witness_FreshMachineHasTheInvariant :
    Params.wellFormed { pcap := 1, dcap := 1, wordTrits := none } = true := by decide

theorem witness_EveryStepKeepsTheInvariant :
    (about (.stAddr .a 28)).inv = true ∧ ∃ t, step (about (.stAddr .a 28)) = .next t := ⟨by decide, _, rfl⟩

theorem witness_EveryHostSequenceKeepsTheInvariant : (small .hlt).inv = true := by decide

theorem witness_EveryStepKeepsValuesInRange :
    (small (.shlReg .c)).valuesFit = true ∧ (∃ t, step (small (.shlReg .c)) = .next t)
      ∧ (small (.addImm .a 5)).valuesFit = false := ⟨by decide, ⟨_, rfl⟩, by decide⟩

theorem witness_LegalProgramsNeverFault :
    (about (.divImm .a 0)).params.wordTrits = none ∧ (about (.divImm .a 0)).fault = none
      ∧ (about (.divImm .a 0)).programLegal = true := by decide

theorem witness_ControlStateMovesAsTheSpecSays :
    ((∃ t, step { about .nop with running := false } = .next t)
        ∧ ({ about .nop with running := false } : State).control = .halt)
      ∧ illegalMachine.hostStep.control = .fault
      ∧ (∃ t, step (about .nop) = .next t ∧ t.control = .run)
      ∧ ((sized 2 1 none).control ≠ .fault
        ∧ [nopSlot, nopSlot].length ≤ (sized 2 1 none).params.pcap
        ∧ (sized 2 1 none).params.dcap < [(0 : Int), 0].length
        ∧ imagesFit (small .nop).params [encode (.movImm .a 4)] [-4] = true
        ∧ imagesFit (small .nop).params [encode (.movImm .a 4)] [-5] = false)
      ∧ (State.reset.stop.control ≠ .run ∧ (State.reset.stop.apply (.load [nopSlot] [])).control = .run)
      ∧ illegalMachine.hostStep.control ≠ .run ∧ (illegalMachine.hostStep.apply .reset).control = .run :=
  ⟨⟨⟨_, rfl⟩, rfl⟩, by decide, ⟨_, rfl, rfl⟩, by decide, by decide, by decide⟩

theorem witness_AluQuotientTruncatesTowardZero :
    ((-2 : Int) ≠ 0 ∧ (0 : Int) ≤ -7 * -2) ∧ ((2 : Int) ≠ 0 ∧ (-7 : Int) * 2 ≤ 0) := by decide

theorem witness_AluSignAbsoluteValueCompare :
    ((-1 : Int) < 0 ∧ (0 : Int) = 0 ∧ (0 : Int) < 1) ∧ (2 : Int) < 5 ∧ (4 : Int) = 4 ∧ (2 : Int) < 5 := by decide

theorem witness_AluShiftsByOneTrit : (0 : Int) ≤ 4 ∧ (-4 : Int) ≤ 0 := by decide

theorem witness_AluOnTritsStaysInTheTrits : (-1 : Int) ≤ -1 ∧ (-1 : Int) ≤ 1 ∧ (-1 : Int) ≤ 1 ∧ (1 : Int) ≤ 1 := by
  decide

theorem witness_AluResultsCauseAtMostWordOverflow :
    (∃ t, exec (.mulReg .a .b) (small .nop) = .next t ∧ t.fault = some (.wordOverflow 0))
      ∧ ∃ t, exec (.mulReg .a .c) (small .nop) = .next t ∧ t.fault = none :=
  ⟨⟨_, rfl, rfl⟩, _, rfl, rfl⟩

theorem witness_NopOnlyAdvancesPc :
    (machine 0 0 0 26).fault = none ∧ (machine 0 0 0 26).pc + 1 = (machine 0 0 0 26).params.pcap := by decide

/-- The reset machine with `HLT` at slot 0 and `NOP` at slot 1. -/
def haltThenNop : State :=
  State.reset.load [encode .hlt, encode .nop] []

theorem witness_HltClearsRunningAndAdvancesPc :
    ∃ t, exec .hlt haltThenNop = .next t ∧ haltThenNop.fault = none ∧ 0 ≤ t.pc ∧ t.pc < t.params.pcap
      ∧ decode (t.slotAt t.pc.toNat) = .instr .nop :=
  ⟨_, rfl, by decide, by decide, by decide, by decide⟩

/-- The largest and the smallest word of two trits, and a value it cannot hold: `fits` at its bounds. -/
theorem witness_fits_bounds :
    fits (small .nop).params 4 = true ∧ fits (small .nop).params (-4) = true ∧ fits (small .nop).params 5 = false := by
  decide

theorem witness_MovWritesItsSource :
    fits (small .nop).params ((small .nop).regs.get .b) = true ∧ fits (small .nop).params 4 = true := by decide

theorem witness_AddSubMulWriteTheExactResult :
    fits (small .nop).params ((small .nop).regs.get .a + (small .nop).regs.get .b) = true
      ∧ fits (small .nop).params ((small .nop).regs.get .c + 3) = true
      ∧ fits (small .nop).params ((small .nop).regs.get .a - (small .nop).regs.get .c) = true
      ∧ fits (small .nop).params ((small .nop).regs.get .b - 0) = true
      ∧ fits (small .nop).params ((small .nop).regs.get .a * (small .nop).regs.get .c) = true
      ∧ fits (small .nop).params ((small .nop).regs.get .b * -1) = true := by decide

theorem witness_DivWritesTheTruncatedQuotient :
    fits (small .nop).params
        (if (small .nop).regs.get .b = 0 then 0 else Int.tdiv ((small .nop).regs.get .a) ((small .nop).regs.get .b))
          = true
      ∧ fits (small .nop).params (if (0 : Int) = 0 then 0 else Int.tdiv ((small .nop).regs.get .a) 0) = true := by
  decide

theorem witness_AndOrWriteMinimumAndMaximum :
    fits (small .nop).params (min ((small .nop).regs.get .a) ((small .nop).regs.get .b)) = true
      ∧ fits (small .nop).params (min ((small .nop).regs.get .a) 2) = true
      ∧ fits (small .nop).params (max ((small .nop).regs.get .a) ((small .nop).regs.get .b)) = true
      ∧ fits (small .nop).params (max ((small .nop).regs.get .b) (-7)) = true := by decide

theorem witness_NotAndNegNegate : fits (small .nop).params (-(small .nop).regs.get .b) = true := by decide

theorem witness_SignAndAbsWriteTheirFunction :
    fits (small .nop).params (Int.sign ((small .nop).regs.get .b)) = true
      ∧ fits (small .nop).params |(small .nop).regs.get .b| = true := by decide

theorem witness_ShlAndShrShiftOneTrit :
    fits (small .nop).params (3 * (small .nop).regs.get .c) = true
      ∧ fits (small .nop).params (Int.tdiv ((small .nop).regs.get .b) 3) = true := by decide

theorem witness_CmpWritesTheSignOfTheDifference :
    fits (small .nop).params (Int.sign ((small .nop).regs.get .a - (small .nop).regs.get .b)) = true
      ∧ fits (small .nop).params (Int.sign ((small .nop).regs.get .a - 9)) = true := by decide

/-- Out of bounds on both sides, at an empty slot, and a machine at a jump to its own index. -/
theorem witness_JmpSetsPcToItsTarget :
    (State.reset.fault = none ∧ ((-1 : Int) < 0 ∧ (State.reset.params.pcap : Int) ≤ 27)
        ∧ (∃ u, exec (.jmp (-1)) State.reset = .next u) ∧ ∃ u, exec (.jmp 27) State.reset = .next u)
      ∧ ((∃ u, exec (.jmp 26) State.reset = .next u) ∧ (0 : Int) ≤ 26 ∧ (26 : Int) < State.reset.params.pcap
        ∧ State.reset.slotAt 26 = Slot.empty)
      ∧ ((about (.jmp 0)).fault = none ∧ (about (.jmp 0)).running = true ∧ 0 ≤ (about (.jmp 0)).pc
        ∧ (about (.jmp 0)).pc < (about (.jmp 0)).params.pcap
        ∧ decode ((about (.jmp 0)).slotAt (about (.jmp 0)).pc.toNat) = .instr (.jmp (about (.jmp 0)).pc)) :=
  ⟨⟨rfl, by decide, ⟨_, rfl⟩, _, rfl⟩, ⟨⟨_, rfl⟩, by decide, by decide, by decide⟩, by decide⟩

theorem witness_JpAndTheSelectionAfterCmp :
    (∃ u, exec (.cmpReg .a .b) (small .nop) = .next u ∧ (small .nop).fault = none ∧ u.fault = none)
      ∧ ∃ u, exec (.cmpImm .a 9) (small .nop) = .next u ∧ u.fault = none :=
  ⟨⟨_, rfl, rfl, rfl⟩, _, rfl, rfl⟩

/-- The machine of `small` with −4 in its last cell. -/
def smallWithData : State :=
  { small .nop with dmem := [(26, -4)] }

theorem witness_LdReadsTheReducedCell :
    fits smallWithData.params (memRead 0 smallWithData.dmem (Int.emod (-1) smallWithData.params.dcap).toNat) = true
      ∧ fits smallWithData.params
        (memRead 0 smallWithData.dmem (Int.emod (smallWithData.regs.get .b) smallWithData.params.dcap).toNat) = true := by
  decide

theorem witness_StStoresAtTheReducedCell :
    smallWithData.inv = true ∧ fits smallWithData.params (smallWithData.regs.get .b) = true
      ∧ (∃ t, exec (.stAddr .b (smallWithData.params.dcap + 1)) smallWithData = .next t)
      ∧ storeOperand (.stInd .a .b) = some (.indirect .b) :=
  ⟨by decide, by decide, ⟨_, rfl⟩, rfl⟩

theorem witness_LeaWritesTheUnreducedAddress :
    fits (small .nop).params 4 = true ∧ (∃ t, exec (.lea .a 4) (small .nop) = .next t)
      ∧ (∃ t, exec (.lea .a 55) (small .nop) = .next t)
      ∧ ∃ u, exec (.lea .a 55) { small .nop with dmem := [(0, 1)] } = .next u :=
  ⟨by decide, ⟨_, rfl⟩, ⟨_, rfl⟩, _, rfl⟩

theorem witness_OnlyTheNamedDestinationChanges :
    smallWithData.inv = true ∧ (∃ t, exec (.stInd .a .b) smallWithData = .next t)
      ∧ ∃ t, exec (.addReg .a .b) smallWithData = .next t ∧ regWritten (.addReg .a .b) ≠ some .b :=
  ⟨by decide, ⟨_, rfl⟩, _, rfl, by decide⟩

theorem witness_OnlyTheNamedRegistersAreRead :
    State.agreeOn (regsRead (.addReg .a .b)) (machine 1 2 3 0) (machine 1 2 9 0) ∧ (machine 1 2 3 0).fault = none :=
  ⟨⟨rfl, by decide⟩, rfl⟩

theorem witness_AddressReductionIsTheLeastResidue :
    1 ≤ (sized 1 1 none).params.dcap ∧ State.reset.params.dcap = 27 := by decide

/-- Both ends of the range, held by no register in the direct forms and by `B` in the indirect ones. -/
theorem witness_AddressesOutOfRangeRaiseNothing :
    ((machine 0 0 0 0).valuesFit = true ∧ (-1 : Int) < 0 ∧ ((machine 0 0 0 0).params.dcap : Int) ≤ 27)
      ∧ ((machine 0 (-1) 0 0).valuesFit = true ∧ (machine 0 (-1) 0 0).regs.get .b < 0)
      ∧ (machine 0 27 0 0).valuesFit = true ∧ ((machine 0 27 0 0).params.dcap : Int) ≤ (machine 0 27 0 0).regs.get .b := by
  decide

theorem witness_LoadAfterStoreReturnsTheStoredValue :
    (smallWithData.inv = true ∧ smallWithData.fault = none
        ∧ ∃ t u, exec (.stAddr .a 28) smallWithData = .next t ∧ exec (.ldAddr .c 1) t = .next u ∧ u.fault = none)
      ∧ ∃ t u, exec (.stInd .a .b) smallWithData = .next t ∧ exec (.ldInd .c .b) t = .next u ∧ u.fault = none :=
  ⟨⟨by decide, rfl, _, _, rfl, rfl, rfl⟩, _, _, rfl, rfl, rfl⟩

/-- A machine about to execute `NOP` stores to no cell at that step. -/
theorem witness_CellKeepsItsValueUntilStoredTo :
    (about .nop).inv = true ∧ ∀ m, m < 1 → ¬ ((about .nop).runFor m).storesTo 0 := by
  refine ⟨by decide, ?_⟩
  intro m hm
  obtain rfl : m = 0 := by omega
  rintro ⟨i, addr, -, hf, hs, -⟩
  have h : (about .nop).fetch = .instr .nop := by decide
  rw [State.runFor_zero, h] at hf
  cases hf
  cases hs

theorem witness_LoadInstallsProgramAndData :
    (small .nop).fault = none ∧ [encode (.movImm .a 4), nopSlot].length ≤ (small .nop).params.pcap
      ∧ [(4 : Int), -4].length ≤ (small .nop).params.dcap
      ∧ (∀ sl ∈ [encode (.movImm .a 4), nopSlot], fits (small .nop).params sl.val = true)
      ∧ ∀ v ∈ [(4 : Int), -4], fits (small .nop).params v = true := by decide

theorem witness_LoadTooLargeFaultsAndInstallsNothing :
    ((sized 2 1 none).fault = none ∧ (sized 2 1 none).params.pcap < [nopSlot, nopSlot, nopSlot].length
      ∧ [nopSlot, nopSlot].length ≤ (sized 2 1 none).params.pcap
      ∧ (sized 2 1 none).params.dcap < [(1 : Int), 2].length)
      ∧ (small .nop).fault = none ∧ [nopSlot].length ≤ (small .nop).params.pcap
      ∧ [(5 : Int)].length ≤ (small .nop).params.dcap
      ∧ (∃ v ∈ [(5 : Int)], fits (small .nop).params v = false)
      ∧ ∃ sl ∈ [encode (.movImm .a (-5))], fits (small .nop).params sl.val = false := by decide

theorem witness_RunReturnsInAtMostOneState :
    State.reset.RunReturns State.reset.hostStep ∧ (machine 0 0 0 27).hostStep.running = false :=
  ⟨⟨1, by decide, by decide⟩, by decide⟩

theorem witness_CodecRoundTrips : 2 * (13 : Int).natAbs ≤ 3 ^ 3 - 1 ∧ 2 * (-13 : Int).natAbs ≤ 3 ^ 3 - 1 := by decide

theorem witness_CodecWrapsToTheLowTrits : (3 ^ 3 : Int) ∣ 14 - -13 := ⟨1, by decide⟩

theorem witness_CodecAcceptsExactlyItsInputs :
    (-1 : Int) < 0 ∧ ∃ d ∈ [(2 : Int), 0], d < -1 ∨ 1 < d := ⟨by decide, 2, by decide, by decide⟩

end Sys2Proof.Tests
end

section
/-!
Memory addressing (20_memory.md): a load or a store completes at every address, because an address is reduced to a cell
index at the access. The one thing that could stop it is a value too large for a finite word, and `State.valuesFit`
excludes that.
-/

namespace Sys2Proof.Machine

open Sys2Proof

/-! ### What a state whose values fit holds -/

/-- A memory whose listed values all have a property that the blank value has too reads nothing else. -/
theorem memRead_of_forall_mem {α : Type} (P : α → Prop) (blank : α) (m : Memory α) (k : Nat)
    (hblank : P blank) (hm : ∀ e ∈ m, P e.2) : P (memRead blank m k) := by
  induction m with
  | nil => exact hblank
  | cons e rest ih =>
    obtain ⟨he, hrest⟩ := List.forall_mem_cons.mp hm
    unfold memRead
    split
    · exact he
    · exact ih hrest

/-- Zero fits a word of every width, so an unwritten cell never overflows. -/
@[simp] theorem fits_zero (p : Params) : fits p 0 = true := by
  cases h : p.wordTrits with
  | none => exact fits_unbounded p 0 h
  | some n => exact (fits_finite p 0 n h).mpr (Nat.zero_le _)

theorem State.valuesFit_iff (s : State) :
    s.valuesFit = true ↔ (∀ r, fits s.params (s.regs.get r) = true)
      ∧ (∀ e ∈ s.dmem, fits s.params e.2 = true) ∧ ∀ e ∈ s.pmem, fits s.params e.2.val = true := by
  have hregs : (∀ r, fits s.params (s.regs.get r) = true) ↔
      fits s.params s.regs.a = true ∧ fits s.params s.regs.b = true ∧ fits s.params s.regs.c = true :=
    ⟨fun h => ⟨h .a, h .b, h .c⟩, fun ⟨ha, hb, hc⟩ r => by cases r <;> assumption⟩
  simp only [State.valuesFit, Bool.and_eq_true, List.all_eq_true, hregs, and_assoc]

theorem State.fits_regs_get (s : State) (r : Reg) (h : s.valuesFit = true) :
    fits s.params (s.regs.get r) = true := by
  obtain ⟨hregs, -⟩ := s.valuesFit_iff.mp h
  exact hregs r

theorem State.fits_readCell (s : State) (addr : Int) (h : s.valuesFit = true) :
    fits s.params (s.readCell addr) = true := by
  obtain ⟨-, hdmem, -⟩ := s.valuesFit_iff.mp h
  exact memRead_of_forall_mem (fun v => fits s.params v = true) 0 s.dmem _ (fits_zero s.params) hdmem

/-! ### Loads and stores where the values fit -/

/-- A load puts back into a register what a cell holds, so it never overflows (R120). -/
theorem loadFrom_of_valuesFit (rd : Reg) (addr : Addr) (s : State) (h : s.valuesFit = true) :
    loadFrom rd addr s = .next (s.advance.setReg rd (s.readCell (s.effAddr addr))) :=
  finishReg_of_fits s rd _ (s.fits_readCell _ h)

/-- A store puts into a cell what a register holds, so it never overflows (R121). -/
theorem storeTo_of_valuesFit (rs : Reg) (addr : Addr) (s : State) (h : s.valuesFit = true) :
    storeTo rs addr s = .next (s.advance.writeCell (s.effAddr addr) (s.regs.get rs)) :=
  finishCell_of_fits s _ _ (s.fits_regs_get rs h)

/-- The outcome `o` is a next state that only advances `pc` as far as `pc`, `running` and the fault state go. -/
def State.CompletesUnder (s : State) (o : Host.Outcome State Fault Refusal) : Prop :=
  ∃ t, o = .next t ∧ t.fault = s.fault ∧ t.running = s.running ∧ t.pc = s.pc + 1

/-- A load completes at every operand, whatever address it stands for (20_memory.md R30, R31). -/
theorem loadFrom_completes (rd : Reg) (addr : Addr) (s : State) (h : s.valuesFit = true) :
    s.CompletesUnder (loadFrom rd addr s) :=
  ⟨_, loadFrom_of_valuesFit rd addr s h, by simp⟩

/-- A store completes at every operand, whatever address it stands for (20_memory.md R30, R31). -/
theorem storeTo_completes (rs : Reg) (addr : Addr) (s : State) (h : s.valuesFit = true) :
    s.CompletesUnder (storeTo rs addr s) :=
  ⟨_, storeTo_of_valuesFit rs addr s h, by simp⟩

/-- Settles O51: loads and stores complete at every operand, so also where its address is out of range; the range
premises go unused. -/
theorem addressesOutOfRangeRaiseNothing : Obligations.AddressesOutOfRangeRaiseNothing := by
  unfold Obligations.AddressesOutOfRangeRaiseNothing
  constructor
  · intro s r a hfit _ i hi
    rcases List.mem_pair.mp hi with rfl | rfl
    · exact loadFrom_completes r (.direct a) s hfit
    · exact storeTo_completes r (.direct a) s hfit
  · intro s r ri hfit _ i hi
    rcases List.mem_pair.mp hi with rfl | rfl
    · exact loadFrom_completes r (.indirect ri) s hfit
    · exact storeTo_completes r (.indirect ri) s hfit

end Sys2Proof.Machine
end

section
/-!
The execution cycle (40_execution_cycle.md): which instruction a step runs, that a step reads the running flag nowhere
and never sets it (R79), and where it leaves `pc` (R76).
-/

namespace Sys2Proof.Machine

open Sys2Proof

/-! ### What the step runs -/

theorem State.pcInBounds_iff (s : State) : s.pcInBounds = true ↔ 0 ≤ s.pc ∧ s.pc < s.params.pcap := by
  simp [State.pcInBounds]

/-- A slot inside program memory that decodes is fetched (R73). -/
theorem State.fetch_of_decode (s : State) (i : Instr) (h0 : 0 ≤ s.pc) (hpc : s.pc < s.params.pcap)
    (hd : decode (s.slotAt s.pc.toNat) = .instr i) : s.fetch = .instr i := by
  have hin : s.pcInBounds = true := s.pcInBounds_iff.mpr ⟨h0, hpc⟩
  simp [State.fetch, hin, hd]

theorem State.fetch_of_outOfBounds (s : State) (h : s.pc < 0 ∨ (s.params.pcap : Int) ≤ s.pc) :
    s.fetch = .outOfBounds := by
  have hout : ¬ s.pcInBounds = true := by rw [s.pcInBounds_iff]; omega
  simp [State.fetch, hout]

theorem step_of_fetch_instr (s : State) (i : Instr) (hf : s.fault = none) (h : s.fetch = .instr i) :
    step s = exec i s := by
  simp [step, hf, h]

/-- The step with the instruction of a legal slot (R73); `running` is no premise. -/
theorem step_of_decode (s : State) (i : Instr) (hf : s.fault = none) (h0 : 0 ≤ s.pc) (hpc : s.pc < s.params.pcap)
    (hd : decode (s.slotAt s.pc.toNat) = .instr i) : step s = exec i s :=
  step_of_fetch_instr s i hf (s.fetch_of_decode i h0 hpc hd)

/-- The clean halt of a run off the end (R74). -/
theorem step_of_outOfBounds (s : State) (hf : s.fault = none) (h : s.pc < 0 ∨ (s.params.pcap : Int) ≤ s.pc) :
    step s = .next s.stop := by
  simp [step, hf, s.fetch_of_outOfBounds h, cleanHalt]

/-! ### What a step answers does not depend on the running flag

`stopOutcome` forgets the running flag of an answer, and `s.stop` that of a state, so "the step does not read `running`"
is one equation: `stopOutcome (step s.stop) = stopOutcome (step s)`. -/

/-- An outcome with the running flag of its next state cleared. -/
def stopOutcome (o : Host.Outcome State Fault Refusal) : Host.Outcome State Fault Refusal :=
  match o with
  | .next t => .next t.stop
  | .fault f => .fault f
  | .refused r => .refused r

@[simp] theorem stopOutcome_next (t : State) : stopOutcome (.next t) = .next t.stop := rfl

/-- Forgetting the running flag does not change whether there is a next state. -/
theorem exists_stopOutcome_eq_next_iff (o : Host.Outcome State Fault Refusal) :
    (∃ t, stopOutcome o = .next t) ↔ ∃ t, o = .next t := by
  cases o with
  | next t => exact ⟨fun _ => ⟨t, rfl⟩, fun _ => ⟨t.stop, rfl⟩⟩
  | fault f => simp [stopOutcome]
  | refused r => simp [stopOutcome]

theorem stopOutcome_finishReg_stop (s : State) (rd : Reg) (v : Int) :
    stopOutcome (finishReg s.stop rd v) = stopOutcome (finishReg s rd v) := by
  cases hv : fits s.params v with
  | true => rw [finishReg_of_fits s rd v hv, finishReg_of_fits s.stop rd v hv]; rfl
  | false => rw [finishReg_of_overflow s rd v hv, finishReg_of_overflow s.stop rd v hv]; rfl

theorem stopOutcome_finishCell_stop (s : State) (addr v : Int) :
    stopOutcome (finishCell s.stop addr v) = stopOutcome (finishCell s addr v) := by
  cases hv : fits s.params v with
  | true => rw [finishCell_of_fits s addr v hv, finishCell_of_fits s.stop addr v hv]; rfl
  | false => rw [finishCell_of_overflow s addr v hv, finishCell_of_overflow s.stop addr v hv]; rfl

theorem stopOutcome_jumpIf_stop (c : Cond) (rs : Reg) (target : Int) (s : State) :
    stopOutcome (jumpIf c rs target s.stop) = stopOutcome (jumpIf c rs target s) := by
  unfold jumpIf
  rw [State.stop_regs]
  split <;> rfl

theorem stopOutcome_exec_stop (i : Instr) (s : State) : stopOutcome (exec i s.stop) = stopOutcome (exec i s) := by
  cases i with
  | nop => rfl
  | hlt => rfl
  | jmp target => rfl
  | jz rs target => exact stopOutcome_jumpIf_stop .zero rs target s
  | jn rs target => exact stopOutcome_jumpIf_stop .negative rs target s
  | jp rs target => exact stopOutcome_jumpIf_stop .positive rs target s
  | stAddr rs addr => exact stopOutcome_finishCell_stop s _ _
  | stInd rs ri => exact stopOutcome_finishCell_stop s _ _
  | _ => exact stopOutcome_finishReg_stop s _ _

@[simp] theorem State.stop_fetch (s : State) : s.stop.fetch = s.fetch := rfl

theorem stopOutcome_step_stop (s : State) : stopOutcome (step s.stop) = stopOutcome (step s) := by
  unfold step
  rw [State.stop_fault, State.stop_fetch]
  split
  · rfl
  · split
    · rfl
    · rfl
    · rfl
    · exact stopOutcome_exec_stop _ s

/-- Two states that differ in nothing but `running` step alike, up to `running` (R79). -/
theorem State.sameButRunning.stopOutcome_step {s s' : State} (h : s.sameButRunning s') :
    stopOutcome (step s) = stopOutcome (step s') :=
  calc stopOutcome (step s) = stopOutcome (step s.stop) := (stopOutcome_step_stop s).symm
    _ = stopOutcome (step s'.stop) := by rw [show s.stop = s'.stop from h]
    _ = stopOutcome (step s') := stopOutcome_step_stop s'

theorem State.sameButRunning_withRunning (s : State) (b : Bool) :
    s.sameButRunning { s with running := b } := rfl

/-! ### The running flag after a step -/

/-- A machine that is not running is unchanged by a clean halt. -/
theorem State.stop_of_not_running (s : State) (h : s.running = false) : s.stop = s := by
  cases s; cases h; rfl

/-- An instruction leaves `running` or clears it. -/
theorem exec_running (i : Instr) (s t : State) (h : exec i s = .next t) :
    t.running = s.running ∨ t.running = false := by
  rcases exec_cases i s t h with rfl | ⟨-, rfl⟩ | ⟨_, rfl⟩ | ⟨_, _, -, -, rfl⟩ | ⟨_, _, -, -, rfl⟩ | ⟨_, -, rfl⟩
  · exact .inl rfl
  · exact .inr rfl
  · exact .inl rfl
  · exact .inl rfl
  · exact .inl rfl
  · exact .inr rfl

/-- A step leaves `running` or clears it (R79). -/
theorem step_running (s t : State) (h : step s = .next t) : t.running = s.running ∨ t.running = false := by
  obtain ⟨-, ⟨-, rfl⟩ | ⟨-, rfl⟩ | ⟨i, -, hi⟩⟩ := step_cases s t h
  · exact .inr rfl
  · exact .inr rfl
  · exact exec_running i s t hi

/-- Settles O12: the answers agree once their running flags are forgotten, and the flag itself is left or cleared. -/
theorem stepIgnoresAndNeverSetsRunning : Obligations.StepIgnoresAndNeverSetsRunning := by
  unfold Obligations.StepIgnoresAndNeverSetsRunning
  refine ⟨?_, ?_, ?_, ?_, ?_⟩
  · intro s t u b ht hu
    have hsame := (s.sameButRunning_withRunning b).stopOutcome_step
    rw [ht, hu] at hsame
    exact Host.Outcome.next.inj hsame
  · intro s b
    rw [← exists_stopOutcome_eq_next_iff, (s.sameButRunning_withRunning b).stopOutcome_step,
      exists_stopOutcome_eq_next_iff]
  · intro s t ht hrun
    rcases step_running s t ht with h | h
    · exact h ▸ hrun
    · exact absurd (h.symm.trans hrun) Bool.false_ne_true
  · intro s i _ hf h0 hpc hd
    exact step_of_decode s i hf h0 hpc hd
  · intro s hrun hf hout
    rw [step_of_outOfBounds s hf hout, s.stop_of_not_running hrun]

/-! ### Where an instruction leaves the program counter -/

/-- The outcome `o` is a next state at `target`, with the fault state of `s`. -/
def State.LeavesPc (s : State) (o : Host.Outcome State Fault Refusal) (target : Int) : Prop :=
  ∃ t, o = .next t ∧ t.fault = s.fault ∧ t.pc = target

theorem State.CompletesUnder.leavesPc {s : State} {o : Host.Outcome State Fault Refusal} (h : s.CompletesUnder o) :
    s.LeavesPc o (s.pc + 1) := by
  obtain ⟨t, ho, hfault, -, hpc⟩ := h
  exact ⟨t, ho, hfault, hpc⟩

theorem finishReg_completes (s : State) (rd : Reg) (v : Int) (h : fits s.params v = true) :
    s.CompletesUnder (finishReg s rd v) :=
  ⟨_, finishReg_of_fits s rd v h, rfl, rfl, rfl⟩

theorem finishCell_completes (s : State) (addr v : Int) (h : fits s.params v = true) :
    s.CompletesUnder (finishCell s addr v) :=
  ⟨_, finishCell_of_fits s addr v h, rfl, rfl, rfl⟩

theorem condHolds_zero (v : Int) : condHolds .zero v = true ↔ v = 0 := by simp [condHolds]

theorem condHolds_negative (v : Int) : condHolds .negative v = true ↔ v < 0 := by simp [condHolds]

theorem condHolds_positive (v : Int) : condHolds .positive v = true ↔ 0 < v := by simp [condHolds]

/-- A conditional jump, its predicate `P` written as the spec writes it (45_control_transfer.md R117 to R119). -/
theorem jumpIf_leavesPc (c : Cond) (rs : Reg) (target : Int) (s : State) (P : Prop) [Decidable P]
    (hP : condHolds c (s.regs.get rs) = true ↔ P) :
    s.LeavesPc (jumpIf c rs target s) (if P then target else s.pc + 1) := by
  rcases jumpIf_cases c rs target s with ⟨hc, hj⟩ | ⟨hc, hj⟩
  · rw [if_pos (hP.mp hc)]
    exact ⟨_, hj, rfl, rfl⟩
  · have hnot : ¬ P := fun h => by simp [hP.mpr h] at hc
    rw [if_neg hnot]
    exact ⟨_, hj, rfl, rfl⟩

/-- Settles O13: with unbounded words no write overflows, so each instruction completes, and only the jumps override the
advance of `pc`. -/
theorem pcAdvancesUnlessAJumpOverridesIt : Obligations.PcAdvancesUnlessAJumpOverridesIt := by
  unfold Obligations.PcAdvancesUnlessAJumpOverridesIt
  intro s i hf hw h0 hpc hd
  have hfits (v : Int) : fits s.params v = true := fits_unbounded s.params v hw
  rw [step_of_decode s i hf h0 hpc hd, ← hf]
  cases i with
  | nop => exact ⟨_, rfl, rfl, rfl⟩
  | hlt => exact ⟨_, rfl, rfl, rfl⟩
  | jmp target => exact ⟨_, rfl, rfl, rfl⟩
  | jz rs target => exact jumpIf_leavesPc .zero rs target s _ (condHolds_zero _)
  | jn rs target => exact jumpIf_leavesPc .negative rs target s _ (condHolds_negative _)
  | jp rs target => exact jumpIf_leavesPc .positive rs target s _ (condHolds_positive _)
  | stAddr rs addr => exact (finishCell_completes s _ _ (hfits _)).leavesPc
  | stInd rs ri => exact (finishCell_completes s _ _ (hfits _)).leavesPc
  | _ => exact (finishReg_completes s _ _ (hfits _)).leavesPc

end Sys2Proof.Machine
end

section
/-!
The ternary ALU (41_ternary_alu.md): each function code's mathematical function on all integers (R87 to R95, R98), the
sign of a truncated quotient (R90), and the one fault an instruction can raise (R86).
-/

namespace Sys2Proof.Machine

open Sys2Proof

/-! ### The function of each code -/

@[simp] theorem alu_add (a b : Int) : alu .add a b = a + b := rfl

@[simp] theorem alu_sub (a b : Int) : alu .sub a b = a - b := rfl

@[simp] theorem alu_mul (a b : Int) : alu .mul a b = a * b := rfl

/-- A zero divisor needs no case of its own, because `Int.tdiv` answers the 0 of R90 there too. -/
@[simp] theorem alu_div (a b : Int) : alu .div a b = Int.tdiv a b := by
  by_cases hb : b = 0
  · subst hb
    exact (Int.tdiv_zero a).symm
  · exact if_pos hb

@[simp] theorem alu_min (a b : Int) : alu .min a b = min a b := (min_def a b).symm

@[simp] theorem alu_max (a b : Int) : alu .max a b = max a b := (max_def a b).symm

@[simp] theorem alu_neg (a b : Int) : alu .neg a b = -a := rfl

theorem signOf_eq_sign (a : Int) : signOf a = Int.sign a := by
  unfold signOf
  rcases lt_trichotomy a 0 with hneg | rfl | hpos
  · rw [if_pos hneg, Int.sign_eq_neg_one_of_neg hneg]
  · rfl
  · rw [if_neg hpos.not_gt, if_neg hpos.ne', Int.sign_eq_one_of_pos hpos]

@[simp] theorem alu_sign (a b : Int) : alu .sign a b = Int.sign a := signOf_eq_sign a

@[simp] theorem alu_abs (a b : Int) : alu .abs a b = |a| := by
  change (if a < 0 then -a else a) = |a|
  split
  · next hneg => exact (abs_of_neg hneg).symm
  · next hnonneg => exact (abs_of_nonneg (not_lt.mp hnonneg)).symm

@[simp] theorem alu_cmp3 (a b : Int) : alu .cmp3 a b = Int.sign (a - b) := signOf_eq_sign (a - b)

/-! ### The sign of a truncated quotient -/

theorem tdiv_nonneg_of_mul_nonneg (a b : Int) (h : 0 ≤ a * b) : 0 ≤ Int.tdiv a b := by
  rcases mul_nonneg_iff.mp h with ⟨ha, hb⟩ | ⟨ha, hb⟩
  · exact Int.tdiv_nonneg ha hb
  · exact Int.tdiv_nonneg_of_nonpos_of_nonpos ha hb

/-- Negating the dividend negates both the product and the quotient. -/
theorem tdiv_nonpos_of_mul_nonpos (a b : Int) (h : a * b ≤ 0) : Int.tdiv a b ≤ 0 := by
  have hneg : 0 ≤ Int.tdiv (-a) b := tdiv_nonneg_of_mul_nonneg (-a) b (by rw [neg_mul]; exact neg_nonneg.mpr h)
  rw [Int.neg_tdiv] at hneg
  exact neg_nonneg.mp hneg

/-! ### The fault an instruction can raise -/

/-- Only a finite word can be too narrow (60_exceptions.md R135). -/
theorem wordTrits_ne_none_of_not_fits (p : Params) (v : Int) (h : fits p v = false) : p.wordTrits ≠ none := by
  intro hw
  exact Bool.false_ne_true (h.symm.trans (fits_unbounded p v hw))

/-- An instruction leaves the fault state, or raises `WordOverflow` on a machine with finite words (R86). -/
theorem exec_fault (i : Instr) (s t : State) (h : exec i s = .next t) :
    t.fault = s.fault ∨ (t.fault = some (.wordOverflow s.pc) ∧ s.params.wordTrits ≠ none) := by
  rcases exec_cases i s t h with rfl | ⟨-, rfl⟩ | ⟨_, rfl⟩ | ⟨_, _, -, -, rfl⟩ | ⟨_, _, -, -, rfl⟩ | ⟨v, hv, rfl⟩
  · exact .inl rfl
  · exact .inl rfl
  · exact .inl rfl
  · exact .inl rfl
  · exact .inl rfl
  · exact .inr ⟨rfl, wordTrits_ne_none_of_not_fits s.params v hv⟩

/-! ### The statements of 41_ternary_alu.md -/

/-- Settles O26: the quotient is `Int.tdiv`, whose absolute value is the library's and whose sign is that of `a * b`. -/
theorem aluQuotientTruncatesTowardZero : Obligations.AluQuotientTruncatesTowardZero := by
  unfold Obligations.AluQuotientTruncatesTowardZero
  refine ⟨?_, ?_, by decide⟩
  · intro a b _
    rw [alu_div]
    exact ⟨Int.natAbs_tdiv a b, tdiv_nonneg_of_mul_nonneg a b, tdiv_nonpos_of_mul_nonpos a b⟩
  · intro a
    rw [alu_div, Int.tdiv_zero]

/-- Settles O31: of the ways an instruction can end, only the overflow of a write touches the fault state. -/
theorem aluResultsCauseAtMostWordOverflow : Obligations.AluResultsCauseAtMostWordOverflow := by
  unfold Obligations.AluResultsCauseAtMostWordOverflow
  refine ⟨exec_fault, ?_, ?_⟩
  · intro a
    rw [alu_div, Int.tdiv_zero]
  · intro a b
    exact ⟨alu_min a b, alu_max a b, alu_neg a b⟩

/-- Settles O25: the exact integer operations of their function codes. -/
theorem aluSumDifferenceProductAreExact : Obligations.AluSumDifferenceProductAreExact := by
  unfold Obligations.AluSumDifferenceProductAreExact
  exact ⟨alu_add, by decide, alu_sub, alu_mul⟩

/-- Settles O27: the model's conditionals are the library's `min` and `max`. -/
theorem aluLogicIsMinimumMaximumNegation : Obligations.AluLogicIsMinimumMaximumNegation := by
  unfold Obligations.AluLogicIsMinimumMaximumNegation
  exact ⟨alu_min, alu_max, alu_neg, by decide⟩

/-- Settles O28: `SIGN` and `CMP3` are `Int.sign` of `a` and of `a - b`, so each case is that of the argument's sign. -/
theorem aluSignAbsoluteValueCompare : Obligations.AluSignAbsoluteValueCompare := by
  unfold Obligations.AluSignAbsoluteValueCompare
  refine ⟨?_, alu_abs, ?_, ?_⟩
  · intro a b
    rw [alu_sign]
    exact ⟨Int.sign_eq_neg_one_of_neg, Int.sign_eq_zero_iff_zero.mpr, Int.sign_eq_one_of_pos⟩
  · intro a b
    rw [alu_cmp3]
    exact ⟨fun hlt => Int.sign_eq_neg_one_of_neg (sub_neg.mpr hlt),
      fun heq => Int.sign_eq_zero_iff_zero.mpr (sub_eq_zero.mpr heq),
      fun hgt => Int.sign_eq_one_of_pos (sub_pos.mpr hgt)⟩
  · intro a b
    rw [alu_cmp3, alu_sign]

end Sys2Proof.Machine
end

section
/-!
No-op, halt and move (42_nop_halt_move.md): the header of an encoded instruction as the rules write it (30_encoding.md
R45), the frame of a register write, and the rules R100 to R102.
-/

namespace Sys2Proof.Machine

open Sys2Proof

/-! ### The header of an encoded instruction -/

/-- The bits of a packed header, field by field (R45). -/
theorem getLsbD_packHeader (op : BitVec 5) (ra kind rb : BitVec 2) (j : Nat) :
    (packHeader op ra kind rb).getLsbD j =
      if j < 5 then op.getLsbD j
      else if j < 7 then ra.getLsbD (j - 5)
      else if j < 9 then kind.getLsbD (j - 7)
      else if j < 11 then rb.getLsbD (j - 9)
      else decide (j = 11) := by
  have happend : (packHeader op ra kind rb).getLsbD j = (1#1 ++ rb ++ kind ++ ra ++ op).getLsbD j := rfl
  rw [happend]
  simp only [BitVec.getLsbD_append]
  grind

/-- The register codes stand in bits 6:5 and 10:9 of a header (R45), so packing them is putting them into the header
whose register fields are 0. Both sides are compared bit by bit. -/
theorem packHeader_eq_headerWith (op : BitVec 5) (ra kind rb : BitVec 2) :
    packHeader op ra kind rb = headerWith (packHeader op 0 kind 0) ra rb := by
  apply BitVec.eq_of_getLsbD_eq
  intro j hj
  simp only [headerWith, BitVec.getLsbD_or, BitVec.getLsbD_shiftLeft, BitVec.getLsbD_setWidth, getLsbD_packHeader]
  interval_cases j <;> simp

/-- The register form of an instruction (R53), its header as the rules of chapters 42 to 46 write it. -/
theorem encodeRegReg_eq_headerWith (op : BitVec 5) (rd rs : Reg) :
    encodeRegReg op rd rs = { h := headerWith (packHeader op 0 1 0) (regCode rd) (regCode rs), val := 0 } :=
  congrArg (Slot.mk · 0) (packHeader_eq_headerWith op _ _ _)

/-- The form with a register and an integer (R53 to R56), its header as the rules of chapters 42 to 46 write it. -/
theorem encodeRegVal_eq_headerWith (op : BitVec 5) (r : Reg) (n : Int) :
    encodeRegVal op r n = { h := headerWith (packHeader op 0 2 0) (regCode r) 0, val := n } :=
  congrArg (Slot.mk · n) (packHeader_eq_headerWith op _ _ _)

/-! ### What an instruction leaves unchanged -/

/-- An advance of `pc` with one register write changes nothing else. -/
theorem State.writesOnlyReg_advance_setReg (s : State) (rd : Reg) (v : Int) :
    s.writesOnlyReg (s.advance.setReg rd v) rd v := by
  have hsame : (s.regs.set rd v).get rd = v := Regs.get_set_same s.regs rd v
  have hother : ∀ r, r ≠ rd → (s.regs.set rd v).get r = s.regs.get r := fun r => Regs.get_set_other s.regs rd r v
  exact ⟨hsame, hother, rfl, rfl, rfl, rfl, fun _ => rfl, fun _ => rfl⟩

/-- An instruction that ends with a register write completes and changes nothing else, if the word holds the value. -/
theorem finishReg_writesOnlyReg (s : State) (rd : Reg) (v : Int) (h : fits s.params v = true) :
    ∃ t, finishReg s rd v = .next t ∧ s.writesOnlyReg t rd v :=
  ⟨_, finishReg_of_fits s rd v h, s.writesOnlyReg_advance_setReg rd v⟩

/-- The run loop has nothing to do on a machine that is not running (40_execution_cycle.md R81). -/
theorem State.runFor_of_not_running (s : State) (fuel : Nat) (h : s.running = false) : s.runFor fuel = s :=
  s.runFor_stopped fuel (by simp [State.runs, h])

/-- `HLT` as the two state updates it is made of (R101). -/
theorem exec_hlt_eq_next_iff (s t : State) : exec .hlt s = .next t ↔ t = s.advance.stop := by
  have hexec : exec .hlt s = .next s.advance.stop := rfl
  rw [hexec, Host.Outcome.next.injEq, eq_comm]

/-! ### The statements of 42_nop_halt_move.md -/

/-- Settles O32: after `NOP` at the last slot, `pc` is out of bounds and the next step is the clean halt of R74. -/
theorem nopOnlyAdvancesPc : Obligations.NopOnlyAdvancesPc := by
  unfold Obligations.NopOnlyAdvancesPc
  refine ⟨by decide, fun _ => rfl, ?_⟩
  intro s hf hlast
  exact step_of_outOfBounds s.advance hf (.inr hlast.ge)

/-- Settles O33: the state after `HLT` is not running, which the run loop tests and the host's step does not. -/
theorem hltClearsRunningAndAdvancesPc : Obligations.HltClearsRunningAndAdvancesPc := by
  unfold Obligations.HltClearsRunningAndAdvancesPc
  refine ⟨by decide, fun _ => rfl, ?_, ?_⟩
  · intro s t ht fuel
    obtain rfl := (exec_hlt_eq_next_iff s t).mp ht
    exact s.advance.stop.runFor_of_not_running fuel rfl
  · intro s t i ht hf h0 hpc hd
    obtain rfl := (exec_hlt_eq_next_iff s t).mp ht
    exact step_of_decode s.advance.stop i hf h0 hpc hd

/-- Settles O34: both forms end with the write of their source value to `rd`. -/
theorem movWritesItsSource : Obligations.MovWritesItsSource := by
  unfold Obligations.MovWritesItsSource
  refine ⟨?_, ?_, ?_, ?_⟩
  · exact encodeRegReg_eq_headerWith 2
  · exact encodeRegVal_eq_headerWith 2
  · intro s rd rs hfit
    exact finishReg_writesOnlyReg s rd (s.regs.get rs) hfit
  · intro s rd n hfit
    exact finishReg_writesOnlyReg s rd n hfit

end Sys2Proof.Machine
end

section
/-!
Negation, sign and absolute value (44_logic_and_ternary.md R109 to R112): the slot of an instruction with one register
(format FR, 30_encoding.md R51), and the register write a one-operand ALU instruction ends with.
-/

namespace Sys2Proof.Machine

open Sys2Proof

/-! ### The slot of a one-register instruction -/

/-- The one-register form of an instruction (R51), its header as the rules of chapter 44 write it. -/
theorem encodeFR_eq_headerWith (op : BitVec 5) (rd : Reg) :
    encodeFR op rd = { h := headerWith (packHeader op 0 0 0) (regCode rd) 0, val := 0 } :=
  congrArg (Slot.mk · 0) (packHeader_eq_headerWith op _ _ _)

/-- The opcode field of the slot is the opcode it was built from (R45). -/
theorem encodeFR_fields_op (op : BitVec 5) (rd : Reg) : (encodeFR op rd).fields.op = op := by
  have happend : (encodeFR op rd).fields.op = (1#1 ++ 0#2 ++ 0#2 ++ regCode rd ++ op).extractLsb' 0 5 := rfl
  rw [happend, BitVec.extractLsb'_append_eq_right]

theorem encodeFR_ne_of_opcode_ne (op op' : BitVec 5) (rd rd' : Reg) (hop : op ≠ op') :
    encodeFR op rd ≠ encodeFR op' rd' := by
  intro hslot
  have hfield : (encodeFR op rd).fields.op = (encodeFR op' rd').fields.op := congrArg (·.fields.op) hslot
  rw [encodeFR_fields_op, encodeFR_fields_op] at hfield
  exact hop hfield

/-! ### The effect of a one-operand ALU instruction -/

/-- A one-operand ALU instruction whose function answers `v` for `rd` completes with `v` in `rd` and changes nothing
else, if the word holds `v`. -/
theorem aluOne_writesOnlyReg (f : AluFn) (s : State) (rd : Reg) (v : Int) (hv : alu f (s.regs.get rd) 0 = v)
    (hfit : fits s.params v = true) : ∃ t, aluOne f rd s = .next t ∧ s.writesOnlyReg t rd v := by
  subst hv
  exact finishReg_writesOnlyReg s rd _ hfit

/-! ### The statements of 44_logic_and_ternary.md -/

/-- Settles O38: both instructions run the ALU's negation, and their slots differ in the opcode. -/
theorem notAndNegNegate : Obligations.NotAndNegNegate := by
  unfold Obligations.NotAndNegNegate
  refine ⟨?_, ?_, ?_, fun _ _ => rfl⟩
  · intro rd
    exact ⟨encodeFR_eq_headerWith 9 rd, encodeFR_eq_headerWith 10 rd, encodeFR_ne_of_opcode_ne 9 10 rd rd (by decide)⟩
  · intro s rd hfit
    exact aluOne_writesOnlyReg .neg s rd _ (alu_neg _ _) hfit
  · intro s rd hfit
    exact aluOne_writesOnlyReg .neg s rd _ (alu_neg _ _) hfit

/-- Settles O39: the ALU's sign and absolute value are `Int.sign` and `|·|`. -/
theorem signAndAbsWriteTheirFunction : Obligations.SignAndAbsWriteTheirFunction := by
  unfold Obligations.SignAndAbsWriteTheirFunction
  refine ⟨?_, ?_, ?_⟩
  · intro rd
    exact ⟨encodeFR_eq_headerWith 11 rd, encodeFR_eq_headerWith 12 rd⟩
  · intro s rd hfit
    exact aluOne_writesOnlyReg .sign s rd _ (alu_sign _ _) hfit
  · intro s rd hfit
    exact aluOne_writesOnlyReg .abs s rd _ (alu_abs _ _) hfit

end Sys2Proof.Machine
end

section
/-!
Control transfer (45_control_transfer.md R116 to R118): where a jump leaves the machine, the halts at the step after it,
and a run that never leaves a jump to its own index.
-/

namespace Sys2Proof.Machine

open Sys2Proof

/-! ### Where a jump leaves the machine -/

/-- `JMP` as the one state update it is made of: the target overrides the advance of `pc` (R116). -/
theorem exec_jmp_eq_next_iff (s u : State) (target : Int) : exec (.jmp target) s = .next u ↔ u = s.setPc target := by
  have hexec : exec (.jmp target) s = .next (s.setPc target) := rfl
  rw [hexec, Host.Outcome.next.injEq, eq_comm]

/-- The whole effect of a conditional jump, its predicate `P` written as the spec writes it (R117 to R119). -/
theorem jumpIf_eq_setPc (c : Cond) (rs : Reg) (target : Int) (s : State) (P : Prop) [Decidable P]
    (hP : condHolds c (s.regs.get rs) = true ↔ P) :
    jumpIf c rs target s = .next (s.setPc (if P then target else s.pc + 1)) := by
  rcases jumpIf_cases c rs target s with ⟨hc, hj⟩ | ⟨hc, hj⟩
  · rw [hj, if_pos (hP.mp hc)]
    rfl
  · have hnot : ¬ P := by simp [← hP, hc]
    rw [hj, if_neg hnot]
    rfl

/-! ### The step at an empty slot -/

theorem decode_empty : decode Slot.empty = .empty := by decide

theorem State.fetch_of_empty (s : State) (h0 : 0 ≤ s.pc) (hpc : s.pc < s.params.pcap)
    (he : s.slotAt s.pc.toNat = Slot.empty) : s.fetch = .empty := by
  have hin : s.pcInBounds = true := s.pcInBounds_iff.mpr ⟨h0, hpc⟩
  simp [State.fetch, hin, he, decode_empty]

/-- The clean halt at an empty slot (R75). -/
theorem step_of_empty (s : State) (hf : s.fault = none) (h0 : 0 ≤ s.pc) (hpc : s.pc < s.params.pcap)
    (he : s.slotAt s.pc.toNat = Slot.empty) : step s = .next s.stop := by
  simp [step, hf, s.fetch_of_empty h0 hpc he, cleanHalt]

/-! ### A run that stays where it is -/

theorem State.hostStep_of_step_next (s t : State) (h : step s = .next t) : s.hostStep = t := by
  simp [State.hostStep, h]

theorem State.runFor_of_hostStep_self (s : State) (fuel : Nat) (h : s.hostStep = s) : s.runFor fuel = s := by
  induction fuel with
  | zero => rfl
  | succ n ih =>
    cases hr : s.runs with
    | false => exact s.runFor_stopped (n + 1) hr
    | true => rw [s.runFor_succ n hr, h, ih]

/-- A running machine that its step leaves as it is never stops, so `run()` does not return (R82). -/
theorem State.not_runReturns_of_hostStep_self (s t : State) (hr : s.runs = true) (h : s.hostStep = s) :
    ¬ s.RunReturns t := by
  rintro ⟨fuel, hrun, hstop⟩
  rw [s.runFor_of_hostStep_self fuel h] at hrun
  subst hrun
  exact Bool.false_ne_true (hstop.symm.trans hr)

/-! ### The statements of 45_control_transfer.md -/

/-- Settles O42: `JMP` is one write of `pc`, so what its target holds matters at the next step alone, and a jump to its
own index is a state that steps to itself. -/
theorem jmpSetsPcToItsTarget : Obligations.JmpSetsPcToItsTarget := by
  unfold Obligations.JmpSetsPcToItsTarget
  refine ⟨fun _ => rfl, fun _ _ => rfl, fun _ => rfl, fun _ => rfl, ?_, ?_, ?_⟩
  · intro s u target hf hu hout
    obtain rfl := (exec_jmp_eq_next_iff s u target).mp hu
    exact step_of_outOfBounds (s.setPc target) hf hout
  · intro s u target hf hu h0 hpc he
    obtain rfl := (exec_jmp_eq_next_iff s u target).mp hu
    exact step_of_empty (s.setPc target) hf h0 hpc he
  · intro s hf hrun h0 hpc hd t
    have hruns : s.runs = true := by simp [State.runs, hf, hrun]
    have hstep : step s = .next s := step_of_decode s (.jmp s.pc) hf h0 hpc hd
    exact s.not_runReturns_of_hostStep_self t hruns (s.hostStep_of_step_next s hstep)

/-- Settles O43: both jumps are `jumpIf`, with the predicates that a value is 0 and that it is negative. -/
theorem jzAndJnTestTheNamedRegister : Obligations.JzAndJnTestTheNamedRegister := by
  unfold Obligations.JzAndJnTestTheNamedRegister
  refine ⟨?_, ?_, ?_⟩
  · intro rs target
    exact ⟨encodeRegVal_eq_headerWith 17 rs target, encodeRegVal_eq_headerWith 18 rs target⟩
  · intro s rs target
    exact jumpIf_eq_setPc .zero rs target s _ (condHolds_zero _)
  · intro s rs target
    exact jumpIf_eq_setPc .negative rs target s _ (condHolds_negative _)

end Sys2Proof.Machine
end

section
/-!
Stores (46_memory_access.md R121): the header of the indirect form (30_encoding.md R55), the frame of a cell write, and
the addresses that reach the cell written.
-/

namespace Sys2Proof.Machine

open Sys2Proof

/-- The indirect form of an instruction (R55), its header as the rules of chapter 46 write it. -/
theorem encodeRegInd_eq_headerWith (op : BitVec 5) (r ri : Reg) :
    encodeRegInd op r ri = { h := headerWith (packHeader op 0 3 0) (regCode r) (regCode ri), val := 0 } :=
  congrArg (Slot.mk · 0) (packHeader_eq_headerWith op _ _ _)

/-! ### The frame of a cell write -/

/-- The invariant keeps data memory in canonical form, which the laws of reading after writing need. -/
theorem State.dmem_wf_of_inv (s : State) (h : s.inv = true) : Memory.wf 0 s.dmem = true := by
  simp only [State.inv, Bool.and_eq_true] at h
  obtain ⟨⟨⟨-, hdmem⟩, -⟩, -⟩ := h
  exact hdmem

/-- An advance of `pc` with one cell write changes nothing else. -/
theorem State.writesOnlyCell_advance_writeCell (s : State) (addr v : Int) (hw : Memory.wf 0 s.dmem = true) :
    s.writesOnlyCell (s.advance.writeCell addr v) addr v := by
  have hsame : ∀ b, s.cellIndex b = s.cellIndex addr → (s.advance.writeCell addr v).readCell b = v :=
    fun b => s.advance.readCell_writeCell_same addr b v hw
  have hother : ∀ b, s.cellIndex b ≠ s.cellIndex addr → (s.advance.writeCell addr v).readCell b = s.readCell b :=
    fun b => s.advance.readCell_writeCell_other addr b v hw
  exact ⟨hsame, hother, fun _ => rfl, rfl, rfl, rfl, rfl, fun _ => rfl⟩

/-- A store completes and changes nothing but the cell its operand reaches, if the word holds the register's value. -/
theorem storeTo_writesOnlyCell (rs : Reg) (addr : Addr) (s : State) (hinv : s.inv = true)
    (hfit : fits s.params (s.regs.get rs) = true) :
    ∃ t, storeTo rs addr s = .next t ∧ s.writesOnlyCell t (s.effAddr addr) (s.regs.get rs) :=
  ⟨_, finishCell_of_fits s _ _ hfit, s.writesOnlyCell_advance_writeCell _ _ (s.dmem_wf_of_inv hinv)⟩

/-! ### The cell an address reaches -/

/-- Addresses `DCAP` apart reach the same cell (20_memory.md R30). -/
theorem State.cellIndex_dcap_add (s : State) (k : Int) : s.cellIndex (s.params.dcap + k) = s.cellIndex k :=
  congrArg Int.toNat (Int.add_emod_left (s.params.dcap : Int) k)

/-! ### The statement of 46_memory_access.md -/

/-- Settles O46: both forms end with the write of one cell, which every address with the same residue modulo `DCAP`
reads. -/
theorem stStoresAtTheReducedCell : Obligations.StStoresAtTheReducedCell := by
  unfold Obligations.StStoresAtTheReducedCell
  refine ⟨?_, ?_, ?_, ?_, ?_, fun _ _ _ _ => rfl⟩
  · exact encodeRegVal_eq_headerWith 21
  · exact encodeRegInd_eq_headerWith 21
  · intro s rs a hinv hfit
    exact storeTo_writesOnlyCell rs (.direct a) s hinv hfit
  · intro s rs ri hinv hfit
    exact storeTo_writesOnlyCell rs (.indirect ri) s hinv hfit
  · intro s t rs k hinv hfit ht
    obtain ⟨u, hu, hsame, -, -, -, -, -, hparams, -⟩ :=
      storeTo_writesOnlyCell rs (.direct (s.params.dcap + k)) s hinv hfit
    obtain rfl : u = t := Host.Outcome.next.inj (hu.symm.trans ht)
    have hread : u.readCell k = s.regs.get rs := hsame k (s.cellIndex_dcap_add k).symm
    rw [← hparams]
    exact hread

end Sys2Proof.Machine
end

section
/-!
The packed format (30_encoding.md sections 2 to 5): the table of legal encodings and the formats agree on every slot,
and the encoder and the decoder undo each other. A slot and its fields determine each other, so a row of the table hits
exactly the slots with `V` set, its opcode, its kind and zero in the register fields it does not use; everything else
follows from facts checked on the rows one by one.
-/

namespace Sys2Proof

/-! ### A slot and its fields determine each other -/

/-- The header with the given fields (R45); `packHeader` is by definition the one with `V` set. -/
def packFields (valid : Bool) (op : BitVec 5) (ra kind rb : BitVec 2) : BitVec 12 :=
  BitVec.ofBool valid ++ rb ++ kind ++ ra ++ op

theorem Slot.fields_packFields (valid : Bool) (op : BitVec 5) (ra kind rb : BitVec 2) (val : Int) :
    (Slot.mk (packFields valid op ra kind rb) val).fields = ⟨valid, rb, kind, ra, op, val⟩ := by
  have hvalid : (packFields valid op ra kind rb).getLsbD 11 = valid := by
    unfold packFields
    rw [BitVec.getLsbD_append, BitVec.getLsbD_append, BitVec.getLsbD_append, BitVec.getLsbD_append]
    simp
  have hrb : (packFields valid op ra kind rb).extractLsb' 9 2 = rb := by
    unfold packFields
    rw [BitVec.extractLsb'_append_eq_of_le (by decide), BitVec.extractLsb'_append_eq_of_le (by decide),
      BitVec.extractLsb'_append_eq_of_le (by decide)]
    exact BitVec.extractLsb'_append_eq_right
  have hkind : (packFields valid op ra kind rb).extractLsb' 7 2 = kind := by
    unfold packFields
    rw [BitVec.extractLsb'_append_eq_of_le (by decide), BitVec.extractLsb'_append_eq_of_le (by decide)]
    exact BitVec.extractLsb'_append_eq_right
  have hra : (packFields valid op ra kind rb).extractLsb' 5 2 = ra := by
    unfold packFields
    rw [BitVec.extractLsb'_append_eq_of_le (by decide)]
    exact BitVec.extractLsb'_append_eq_right
  have hop : (packFields valid op ra kind rb).extractLsb' 0 5 = op := BitVec.extractLsb'_append_eq_right
  simp only [Slot.fields, hvalid, hrb, hkind, hra, hop]

theorem Slot.h_eq_packFields (sl : Slot) :
    sl.h = packFields sl.fields.valid sl.fields.op sl.fields.ra sl.fields.kind sl.fields.rb := by
  have hvalid : BitVec.ofBool (sl.h.getLsbD 11) = sl.h.extractLsb' 11 1 := by
    apply BitVec.eq_of_getLsbD_eq
    simp
  have hjoin (start len len' : Nat) : sl.h.extractLsb' (start + len) len' ++ sl.h.extractLsb' start len =
      sl.h.extractLsb' start (len' + len) := BitVec.extractLsb'_append_extractLsb'_eq_extractLsb' rfl
  simp only [Slot.fields, packFields, hvalid]
  rw [hjoin 9 2 1, hjoin 7 2 3, hjoin 5 2 5, hjoin 0 5 7, BitVec.extractLsb'_eq_self]

theorem Slot.eq_of_fields_eq (sl sl' : Slot) (h : sl.fields = sl'.fields) : sl = sl' := by
  have hh : sl.h = sl'.h := by rw [sl.h_eq_packFields, sl'.h_eq_packFields, h]
  have hval : sl.val = sl'.val := congrArg SlotFields.val h
  cases sl; cases sl'; simp_all

theorem packFields_and (v v' : Bool) (op op' : BitVec 5) (ra ra' kind kind' rb rb' : BitVec 2) :
    packFields v op ra kind rb &&& packFields v' op' ra' kind' rb' =
      packFields (v && v') (op &&& op') (ra &&& ra') (kind &&& kind') (rb &&& rb') := by
  unfold packFields
  rw [BitVec.and_append, BitVec.and_append, BitVec.and_append, BitVec.and_append, BitVec.ofBool_and_ofBool]

theorem packFields_inj_iff (v v' : Bool) (op op' : BitVec 5) (ra ra' kind kind' rb rb' : BitVec 2) :
    packFields v op ra kind rb = packFields v' op' ra' kind' rb' ↔
      v = v' ∧ op = op' ∧ kind = kind' ∧ ra = ra' ∧ rb = rb' := by
  constructor
  · intro h
    have hf := congrArg (fun x => (Slot.mk x 0).fields) h
    simp only [Slot.fields_packFields, SlotFields.mk.injEq] at hf
    obtain ⟨hv, hrb, hkind, hra, hop, -⟩ := hf
    exact ⟨hv, hop, hkind, hra, hrb⟩
  · rintro ⟨rfl, rfl, rfl, rfl, rfl⟩
    rfl

/-! ### The rows of the table -/

/-- The opcode a row fixes (R59). -/
def Form.op (F : Form) : BitVec 5 := F.pattern.extractLsb' 0 5

/-- The kind of second operand a row fixes (R46). -/
def Form.kind (F : Form) : BitVec 2 := F.pattern.extractLsb' 7 2

/-- The bits a row fixes in a register field: all of them where it does not use the field. -/
def fieldMask (used : Bool) : BitVec 2 := if used then 0 else BitVec.allOnes 2

/-- What a row requires beyond its opcode is what the format of the opcode requires of its kind (R50 to R56). -/
def Form.follows (F : Form) (fmt : Format) : Bool :=
  fmt.admits F.kind && F.usesRa == fmt.usesRa && F.usesRb == (F.kind == 1 || F.kind == 3) && F.valZero == (F.kind != 2)

/-- What stands in a register field: the code of the operand, or 0 where the row does not use the field. -/
def fieldCode (used : Bool) (r : Reg) : BitVec 2 := if used then regCode r else 0

/-- The operand of a register field, `A` standing in for no operand. -/
def fieldOperand (used : Bool) (r : Reg) : Reg := if used then r else .a

/-- The slot of a row's instruction with the operands `x`, `y` and `v`, as far as the row uses them. -/
def Form.slot (F : Form) (x y : Reg) (v : Int) : Slot :=
  { h := packHeader F.op (fieldCode F.usesRa x) F.kind (fieldCode F.usesRb y), val := if F.valZero then 0 else v }

theorem forms_pattern_mask : ∀ F ∈ forms, F.pattern = packFields true F.op 0 F.kind 0
    ∧ F.mask = packFields true (BitVec.allOnes 5) (fieldMask F.usesRa) (BitVec.allOnes 2) (fieldMask F.usesRb) := by
  decide

theorem forms_follow_their_format : ∀ F ∈ forms, (Format.ofOpcode F.op.toNat).any F.follows = true := by decide

/-- The table has a row for every opcode and every kind its format admits. -/
theorem exists_form_of_admitted : ∀ (op : BitVec 5) (kind : BitVec 2),
    (Format.ofOpcode op.toNat).any (·.admits kind) = true → ∃ F ∈ forms, F.op = op ∧ F.kind = kind := by
  decide

theorem forms_differ_in_op_or_kind : forms.Pairwise (fun F G => ¬ (F.op = G.op ∧ F.kind = G.kind)) := by decide

/-- What holds of the instruction each row builds: the encoder gives it the row's slot, and it does not depend on the
operands the row does not use. -/
theorem forms_build : ∀ F ∈ forms, ∀ x y v, encode (F.build x y v) = F.slot x y v
    ∧ F.build (fieldOperand F.usesRa x) (fieldOperand F.usesRb y) (if F.valZero then 0 else v) = F.build x y v := by
  rw [← List.forall_iff_forall_mem]
  simp only [forms, formsLow, formsHigh, List.cons_append, List.nil_append, List.Forall]
  and_intros <;> exact fun _ _ _ => ⟨rfl, rfl⟩

theorem encode_build (F : Form) (hF : F ∈ forms) (x y : Reg) (v : Int) : encode (F.build x y v) = F.slot x y v :=
  (forms_build F hF x y v).1

theorem build_fieldOperand (F : Form) (hF : F ∈ forms) (x y : Reg) (v : Int) :
    F.build (fieldOperand F.usesRa x) (fieldOperand F.usesRb y) (if F.valZero then 0 else v) = F.build x y v :=
  (forms_build F hF x y v).2

/-- The instruction of the row with the number `n`, counted from 0. -/
theorem build_mem (n : Nat) (x y : Reg) (v : Int) (hn : n < forms.length := by decide) :
    ∃ F ∈ forms, ∃ x' y' v', forms[n].build x y v = F.build x' y' v' :=
  ⟨forms[n], List.getElem_mem hn, x, y, v, rfl⟩

/-- Every instruction is that of a row; the register and the integer a row ignores are written `A` and 0 here. -/
theorem exists_form_build (i : Instr) : ∃ F ∈ forms, ∃ x y v, i = F.build x y v := by
  cases i with
  | nop => exact build_mem 0 .a .a 0
  | hlt => exact build_mem 1 .a .a 0
  | movReg rd rs => exact build_mem 2 rd rs 0
  | movImm rd n => exact build_mem 3 rd .a n
  | addReg rd rs => exact build_mem 4 rd rs 0
  | addImm rd n => exact build_mem 5 rd .a n
  | subReg rd rs => exact build_mem 6 rd rs 0
  | subImm rd n => exact build_mem 7 rd .a n
  | mulReg rd rs => exact build_mem 8 rd rs 0
  | mulImm rd n => exact build_mem 9 rd .a n
  | divReg rd rs => exact build_mem 10 rd rs 0
  | divImm rd n => exact build_mem 11 rd .a n
  | andReg rd rs => exact build_mem 12 rd rs 0
  | andImm rd n => exact build_mem 13 rd .a n
  | orReg rd rs => exact build_mem 14 rd rs 0
  | orImm rd n => exact build_mem 15 rd .a n
  | notReg rd => exact build_mem 16 rd .a 0
  | negReg rd => exact build_mem 17 rd .a 0
  | signReg rd => exact build_mem 18 rd .a 0
  | absReg rd => exact build_mem 19 rd .a 0
  | shlReg rd => exact build_mem 20 rd .a 0
  | shrReg rd => exact build_mem 21 rd .a 0
  | cmpReg rd rs => exact build_mem 22 rd rs 0
  | cmpImm rd n => exact build_mem 23 rd .a n
  | jmp t => exact build_mem 24 .a .a t
  | jz rs t => exact build_mem 25 rs .a t
  | jn rs t => exact build_mem 26 rs .a t
  | jp rs t => exact build_mem 27 rs .a t
  | ldAddr rd addr => exact build_mem 28 rd .a addr
  | ldInd rd ri => exact build_mem 29 rd ri 0
  | stAddr rs addr => exact build_mem 30 rs .a addr
  | stInd rs ri => exact build_mem 31 rs ri 0
  | lea rd addr => exact build_mem 32 rd .a addr

/-! ### A row reads exactly its own slots -/

theorem fieldCode_and_fieldMask (used : Bool) (r : Reg) : fieldCode used r &&& fieldMask used = 0 := by
  cases used with
  | false => exact BitVec.zero_and
  | true => exact BitVec.and_zero

theorem fieldReg_fieldCode (used : Bool) (r : Reg) :
    fieldReg used (fieldCode used r) = some (fieldOperand used r) := by
  cases used with
  | false => rfl
  | true => cases r <;> rfl

theorem regOfCode_eq_some (code : BitVec 2) (r : Reg) (h : regOfCode code = some r) : code = regCode r := by
  unfold regOfCode at h
  split at h
  · cases h; assumption
  · split at h
    · cases h; assumption
    · split at h
      · cases h; assumption
      · cases h

theorem eq_fieldCode_of_fieldReg (used : Bool) (field : BitVec 2) (r : Reg) (hmask : field &&& fieldMask used = 0)
    (hr : fieldReg used field = some r) : field = fieldCode used r := by
  cases used with
  | false => exact BitVec.and_allOnes.symm.trans hmask
  | true => exact regOfCode_eq_some field r hr

/-- The test of a row's bits (R60), field by field. -/
theorem Form.hits_iff (F : Form) (hF : F ∈ forms) (sl : Slot) : F.hits sl.h = true ↔
    sl.fields.valid = true ∧ sl.fields.op = F.op ∧ sl.fields.kind = F.kind
      ∧ sl.fields.ra &&& fieldMask F.usesRa = 0 ∧ sl.fields.rb &&& fieldMask F.usesRb = 0 := by
  obtain ⟨hpattern, hmask⟩ := forms_pattern_mask F hF
  rw [Form.hits, beq_iff_eq, hpattern, hmask, sl.h_eq_packFields, packFields_and, packFields_inj_iff, Bool.and_true,
    BitVec.and_allOnes, BitVec.and_allOnes]

@[simp] theorem Form.slot_fields (F : Form) (x y : Reg) (v : Int) : (F.slot x y v).fields =
    ⟨true, fieldCode F.usesRb y, F.kind, fieldCode F.usesRa x, F.op, if F.valZero then 0 else v⟩ :=
  Slot.fields_packFields true _ _ _ _ _

@[simp] theorem Form.slot_val (F : Form) (x y : Reg) (v : Int) : (F.slot x y v).val = if F.valZero then 0 else v := rfl

theorem Form.hits_slot (F : Form) (hF : F ∈ forms) (x y : Reg) (v : Int) : F.hits (F.slot x y v).h = true := by
  rw [F.hits_iff hF, F.slot_fields]
  exact ⟨rfl, rfl, rfl, fieldCode_and_fieldMask _ _, fieldCode_and_fieldMask _ _⟩

theorem Form.read_slot (F : Form) (hF : F ∈ forms) (x y : Reg) (v : Int) :
    F.read (F.slot x y v) = some (F.build x y v) := by
  have hval : (!F.valZero || (F.slot x y v).val == 0) = true := by cases hz : F.valZero <;> simp [hz]
  rw [Form.read, F.hits_slot hF, hval, F.slot_fields, fieldReg_fieldCode, fieldReg_fieldCode, F.slot_val]
  exact congrArg some (build_fieldOperand F hF x y v)

/-- Everything a row that reads a slot has found there (R61). -/
theorem Form.read_cases (F : Form) (sl : Slot) (i : Instr) (h : F.read sl = some i) :
    F.hits sl.h = true ∧ (F.valZero = true → sl.val = 0) ∧ ∃ x y, fieldReg F.usesRa sl.fields.ra = some x
      ∧ fieldReg F.usesRb sl.fields.rb = some y ∧ i = F.build x y sl.val := by
  unfold Form.read at h
  split at h
  · next htest =>
    obtain ⟨hhits, hval⟩ := Bool.and_eq_true_iff.mp htest
    split at h
    · next x y hx hy => exact ⟨hhits, fun hz => by simpa [hz] using hval, x, y, hx, hy, (Option.some.inj h).symm⟩
    · cases h
  · cases h

theorem Form.eq_slot_of_read (F : Form) (hF : F ∈ forms) (sl : Slot) (i : Instr) (h : F.read sl = some i) :
    ∃ x y v, sl = F.slot x y v ∧ i = F.build x y v := by
  obtain ⟨hhits, hval, x, y, hx, hy, rfl⟩ := F.read_cases sl i h
  obtain ⟨hvalid, hop, hkind, hra, hrb⟩ := (F.hits_iff hF sl).mp hhits
  have hv : (if F.valZero then 0 else sl.val) = sl.val := by
    split
    · next hzero => exact (hval hzero).symm
    · rfl
  refine ⟨x, y, sl.val, sl.eq_of_fields_eq _ ?_, rfl⟩
  rw [F.slot_fields, ← hop, ← hkind, ← eq_fieldCode_of_fieldReg _ _ x hra hx,
    ← eq_fieldCode_of_fieldReg _ _ y hrb hy, hv, ← hvalid]
  rfl

/-! ### The decoder -/

theorem readFirst_eq_none_or_mem (fs : List Form) (sl : Slot) :
    readFirst fs sl = none ∨ ∃ F ∈ fs, readFirst fs sl = F.read sl := by
  induction fs with
  | nil => exact .inl rfl
  | cons F rest ih =>
    cases hF : F.read sl with
    | some i => exact .inr ⟨F, List.mem_cons_self, by simp [readFirst, hF]⟩
    | none =>
      have hrest : readFirst (F :: rest) sl = readFirst rest sl := by simp [readFirst, hF]
      rw [hrest]
      exact ih.imp_right fun ⟨G, hG, h⟩ => ⟨G, List.mem_cons_of_mem F hG, h⟩

/-- Where no two rows hit one header, the order of the rows does not matter. -/
theorem readFirst_of_mem (fs : List Form) (sl : Slot) (F : Form) (i : Instr)
    (hfs : fs.Pairwise (fun F G => ∀ h : BitVec 12, ¬ (F.hits h = true ∧ G.hits h = true))) (hF : F ∈ fs)
    (h : F.read sl = some i) : readFirst fs sl = some i := by
  induction fs with
  | nil => cases hF
  | cons G rest ih =>
    obtain ⟨hG, hrest⟩ := List.pairwise_cons.mp hfs
    rcases List.mem_cons.mp hF with rfl | hmem
    · simp [readFirst, h]
    · have hnone : G.read sl = none := by
        cases hr : G.read sl with
        | none => rfl
        | some j => exact absurd ⟨(G.read_cases sl j hr).1, (F.read_cases sl i h).1⟩ (hG F hmem sl.h)
      simpa [readFirst, hnone] using ih hrest hmem

/-- Settles O4: two rows differ in the opcode or the kind, and a header a row hits has the row's. -/
theorem noTwoFormsHitOneHeader : Obligations.NoTwoFormsHitOneHeader := by
  unfold Obligations.NoTwoFormsHitOneHeader
  refine forms_differ_in_op_or_kind.imp_of_mem ?_
  rintro F G hF hG hdiffer h ⟨hFh, hGh⟩
  obtain ⟨-, hopF, hkindF, -⟩ := (F.hits_iff hF ⟨h, 0⟩).mp hFh
  obtain ⟨-, hopG, hkindG, -⟩ := (G.hits_iff hG ⟨h, 0⟩).mp hGh
  exact hdiffer ⟨hopF.symm.trans hopG, hkindF.symm.trans hkindG⟩

/-- The decoder reads an instruction exactly from the slots of the table's rows (R60, R61). -/
theorem decode_eq_instr_iff (sl : Slot) (i : Instr) :
    decode sl = .instr i ↔ ∃ F ∈ forms, ∃ x y v, sl = F.slot x y v ∧ i = F.build x y v := by
  constructor
  · intro h
    have hread : readFirst forms sl = some i := by
      unfold decode at h
      split at h
      · split at h
        · next hr => cases h; exact hr
        · cases h
      · split at h <;> cases h
    rcases readFirst_eq_none_or_mem forms sl with hnone | ⟨F, hF, hr⟩
    · cases hnone.symm.trans hread
    · exact ⟨F, hF, F.eq_slot_of_read hF sl i (hr.symm.trans hread)⟩
  · rintro ⟨F, hF, x, y, v, rfl, rfl⟩
    have hread := readFirst_of_mem forms _ F _ noTwoFormsHitOneHeader hF (F.read_slot hF x y v)
    have hvalid : (F.slot x y v).h.getLsbD 11 = true := congrArg SlotFields.valid (F.slot_fields x y v)
    rw [decode, hvalid, hread]
    rfl

/-- Settles O1: the encoder gives an instruction the slot of its row, and the decoder reads a row's slot back. -/
theorem decodeOfEncodeIsTheInstruction : Obligations.DecodeOfEncodeIsTheInstruction := by
  unfold Obligations.DecodeOfEncodeIsTheInstruction
  intro i
  obtain ⟨F, hF, x, y, v, rfl⟩ := exists_form_build i
  exact (decode_eq_instr_iff _ _).mpr ⟨F, hF, x, y, v, encode_build F hF x y v, rfl⟩

/-- Settles O2: a slot the decoder reads is the slot of a row, which the encoder gives to the row's instruction. -/
theorem decodedSlotIsTheEncoding : Obligations.DecodedSlotIsTheEncoding := by
  unfold Obligations.DecodedSlotIsTheEncoding
  intro sl i h
  obtain ⟨F, hF, x, y, v, rfl, rfl⟩ := (decode_eq_instr_iff sl i).mp h
  exact encode_build F hF x y v

theorem decode_of_eq_encode (sl : Slot) (i : Instr) (h : sl = encode i) : decode sl = .instr i :=
  h ▸ decodeOfEncodeIsTheInstruction i

/-- Settles O5: each slot is the encoding of its instruction. -/
theorem wordsOfTheSpecDecodeAsListed : Obligations.WordsOfTheSpecDecodeAsListed := by
  unfold Obligations.WordsOfTheSpecDecodeAsListed
  and_intros <;> exact decode_of_eq_encode _ _ (by decide)

/-! ### The field rules -/

theorem registerDefects_eq_nil_iff (used : Bool) (field : BitVec 2) :
    registerDefects used field = [] ↔ ∃ r, field = fieldCode used r := by
  have hthree (P : Reg → Prop) : (∃ r, P r) ↔ P .a ∨ P .b ∨ P .c :=
    ⟨fun ⟨r, h⟩ => by cases r <;> simp [h], by rintro (h | h | h) <;> exact ⟨_, h⟩⟩
  rw [hthree]
  revert used field
  decide

/-- The field rules on a slot with `V` set (R62): the format of the opcode admits the kind, and each field holds an
operand where it is used and 0 where it is not. -/
theorem SlotFields.wellFormed_iff_of_valid (f : SlotFields) (hvalid : f.valid = true) : f.wellFormed = true ↔
    ∃ fmt, Format.ofOpcode f.op.toNat = some fmt ∧ fmt.admits f.kind = true ∧ (∃ x, f.ra = fieldCode fmt.usesRa x)
      ∧ (∃ y, f.rb = fieldCode (f.kind == 1 || f.kind == 3) y) ∧ (f.kind = 2 ∨ f.val = 0) := by
  rw [SlotFields.wellFormed, List.isEmpty_iff, SlotFields.defects, if_pos hvalid]
  cases Format.ofOpcode f.op.toNat with
  | none => simp
  | some fmt => simp [registerDefects_eq_nil_iff, or_iff_not_imp_left]

theorem Form.follows_iff (F : Form) (fmt : Format) : F.follows fmt = true ↔ fmt.admits F.kind = true
    ∧ F.usesRa = fmt.usesRa ∧ F.usesRb = (F.kind == 1 || F.kind == 3) ∧ (F.valZero = true ↔ F.kind ≠ 2) := by
  have hval : F.valZero = (F.kind != 2) ↔ (F.valZero = true ↔ F.kind ≠ 2) := by rw [Bool.eq_iff_iff, bne_iff_ne]
  simp only [Form.follows, Bool.and_eq_true, beq_iff_eq, and_assoc, hval]

theorem exists_format (F : Form) (hF : F ∈ forms) :
    ∃ fmt, Format.ofOpcode F.op.toNat = some fmt ∧ fmt.admits F.kind = true ∧ F.usesRa = fmt.usesRa
      ∧ F.usesRb = (F.kind == 1 || F.kind == 3) ∧ (F.valZero = true ↔ F.kind ≠ 2) := by
  obtain ⟨fmt, hfmt, hfollows⟩ := (Option.any_eq_true _ _).mp (forms_follow_their_format F hF)
  exact ⟨fmt, hfmt, (F.follows_iff fmt).mp hfollows⟩

theorem Form.slot_wellFormed (F : Form) (hF : F ∈ forms) (x y : Reg) (v : Int) :
    (F.slot x y v).fields.wellFormed = true := by
  obtain ⟨fmt, hfmt, hadmits, hra, hrb, hval⟩ := exists_format F hF
  rw [F.slot_fields, SlotFields.wellFormed_iff_of_valid _ rfl]
  refine ⟨fmt, hfmt, hadmits, ⟨x, by rw [hra]⟩, ⟨y, by rw [hrb]⟩, ?_⟩
  by_cases hkind : F.kind = 2
  · exact .inl hkind
  · exact .inr (if_pos (hval.mpr hkind))

theorem exists_slot_of_wellFormed (sl : Slot) (hvalid : sl.fields.valid = true) (hwf : sl.fields.wellFormed = true) :
    ∃ F ∈ forms, ∃ x y v, sl = F.slot x y v := by
  obtain ⟨fmt, hfmt, hadmits, ⟨x, hx⟩, ⟨y, hy⟩, hval⟩ := (SlotFields.wellFormed_iff_of_valid _ hvalid).mp hwf
  obtain ⟨F, hF, hop, hkind⟩ := exists_form_of_admitted sl.fields.op sl.fields.kind (by simp [hfmt, hadmits])
  obtain ⟨fmt', hfmt', -, hra, hrb, hz⟩ := exists_format F hF
  obtain rfl : fmt' = fmt := Option.some.inj (hfmt'.symm.trans (by rw [hop, hfmt]))
  refine ⟨F, hF, x, y, sl.val, sl.eq_of_fields_eq _ ?_⟩
  have hv : sl.fields.val = if F.valZero then 0 else sl.val := by
    split
    · next hzero => exact hval.resolve_left (hkind ▸ hz.mp hzero)
    · rfl
  rw [F.slot_fields, hra, hrb, hkind, hop, ← hx, ← hy, ← hv, ← hvalid]

/-- The field rules without `V` (R62): such a slot is legal only where every bit and the integer are 0. -/
theorem wellFormed_iff_empty_of_not_valid (sl : Slot) (hvalid : sl.fields.valid = false) :
    sl.fields.wellFormed = true ↔ sl = Slot.empty := by
  constructor
  · intro h
    rw [SlotFields.wellFormed, List.isEmpty_iff, SlotFields.defects, if_neg (by simp [hvalid])] at h
    split at h
    · next hzero =>
      obtain ⟨hrb, hkind, hra, hop, hval⟩ := hzero
      have hfields : sl.fields = ⟨false, 0, 0, 0, 0, 0⟩ := by
        cases hf : sl.fields
        simp_all
      exact sl.eq_of_fields_eq _ (hfields.trans (by decide))
    · cases h
  · rintro rfl
    decide

theorem wellFormed_iff (sl : Slot) :
    sl.fields.wellFormed = true ↔ sl = Slot.empty ∨ ∃ F ∈ forms, ∃ x y v, sl = F.slot x y v := by
  constructor
  · intro hwf
    cases hvalid : sl.fields.valid with
    | false => exact .inl ((wellFormed_iff_empty_of_not_valid sl hvalid).mp hwf)
    | true => exact .inr (exists_slot_of_wellFormed sl hvalid hwf)
  · rintro (rfl | ⟨F, hF, x, y, v, rfl⟩)
    · decide
    · exact F.slot_wellFormed hF x y v

theorem decode_eq_empty_iff (sl : Slot) : decode sl = .empty ↔ sl = Slot.empty := by
  constructor
  · intro h
    unfold decode at h
    split at h
    · split at h <;> cases h
    · split at h
      · next hzero =>
        cases sl
        exact congrArg₂ Slot.mk hzero.1 hzero.2
      · cases h
  · rintro rfl
    decide

theorem decode_eq_illegal_iff (sl : Slot) : decode sl = .illegal ↔ sl.fields.wellFormed = false := by
  rw [← Bool.not_eq_true, wellFormed_iff, ← decode_eq_empty_iff]
  cases hd : decode sl with
  | empty => simp
  | instr i =>
    obtain ⟨F, hF, x, y, v, hsl, -⟩ := (decode_eq_instr_iff sl i).mp hd
    simpa using ⟨F, hF, x, y, v, hsl⟩
  | illegal =>
    have hnot : ¬ ∃ F ∈ forms, ∃ x y v, sl = F.slot x y v := by
      rintro ⟨F, hF, x, y, v, hsl⟩
      cases hd.symm.trans ((decode_eq_instr_iff sl _).mpr ⟨F, hF, x, y, v, hsl, rfl⟩)
    simpa using hnot

/-- Settles O3: the legal slots of the field rules are the empty slot and the slots of the table's rows. -/
theorem illegalSlotsAreTheDefectiveOnes : Obligations.IllegalSlotsAreTheDefectiveOnes := by
  unfold Obligations.IllegalSlotsAreTheDefectiveOnes
  exact fun sl => ⟨decode_eq_illegal_iff sl, decode_eq_empty_iff sl⟩

end Sys2Proof
end

section
/-!
The step at each kind of slot and in the fault state (40_execution_cycle.md R73 to R77, 60_exceptions.md R133 and R134):
the instruction it runs, the halts and the fault it takes instead, and what no step writes.
-/

namespace Sys2Proof.Machine

open Sys2Proof

/-! ### The step at an illegal slot and in the fault state -/

/-- A slot with a defect is fetched as illegal (R134). -/
theorem State.fetch_of_defect (s : State) (h0 : 0 ≤ s.pc) (hpc : s.pc < s.params.pcap)
    (hslot : (s.slotAt s.pc.toNat).fields.wellFormed = false) : s.fetch = .illegal := by
  have hin : s.pcInBounds = true := s.pcInBounds_iff.mpr ⟨h0, hpc⟩
  simp [State.fetch, hin, (decode_eq_illegal_iff _).mpr hslot]

theorem step_of_fetch_illegal (s : State) (hf : s.fault = none) (h : s.fetch = .illegal) :
    step s = .next (s.raiseFault (.illegalInstruction s.pc)) := by
  simp [step, hf, h, takeIllegal]

theorem step_of_faulted (s : State) (k : FaultKind) (h : s.fault = some k) : step s = .fault (.stuck k) := by
  simp [step, h, noStep]

theorem State.hostStep_of_faulted (s : State) (k : FaultKind) (h : s.fault = some k) : s.hostStep = s := by
  simp [State.hostStep, step_of_faulted s k h]

theorem State.runFor_of_faulted (s : State) (k : FaultKind) (h : s.fault = some k) (fuel : Nat) :
    s.runFor fuel = s :=
  s.runFor_stopped fuel (by simp [State.runs, h])

theorem State.load_of_faulted (s : State) (k : FaultKind) (h : s.fault = some k) (prog : List Slot) (data : List Int) :
    s.load prog data = s := by
  simp [State.load, h]

/-! ### What no step writes -/

/-- No instruction writes the parameters or program memory (20_memory.md R41). -/
theorem exec_params_pmem (i : Instr) (s t : State) (h : exec i s = .next t) :
    t.params = s.params ∧ t.pmem = s.pmem := by
  rcases exec_cases i s t h with rfl | ⟨-, rfl⟩ | ⟨_, rfl⟩ | ⟨_, _, -, -, rfl⟩ | ⟨_, _, -, -, rfl⟩ | ⟨_, -, rfl⟩ <;>
    exact ⟨rfl, rfl⟩

theorem step_params_pmem (s t : State) (h : step s = .next t) : t.params = s.params ∧ t.pmem = s.pmem := by
  obtain ⟨-, ⟨-, rfl⟩ | ⟨-, rfl⟩ | ⟨i, -, hi⟩⟩ := step_cases s t h
  · exact ⟨rfl, rfl⟩
  · exact ⟨rfl, rfl⟩
  · exact exec_params_pmem i s t hi

/-- An instruction leaves the fault state, or overflows and writes nothing else (60_exceptions.md R133). -/
theorem exec_fault_precise (i : Instr) (s t : State) (h : exec i s = .next t) :
    t.fault = s.fault ∨ t = s.raiseFault (.wordOverflow s.pc) := by
  rcases exec_cases i s t h with rfl | ⟨-, rfl⟩ | ⟨_, rfl⟩ | ⟨_, _, -, -, rfl⟩ | ⟨_, _, -, -, rfl⟩ | ⟨_, -, rfl⟩
  · exact .inl rfl
  · exact .inl rfl
  · exact .inl rfl
  · exact .inl rfl
  · exact .inl rfl
  · exact .inr rfl

/-! ### The statements about one step -/

/-- Settles O15: an instruction can only overflow, and the step itself only raise the illegal instruction. -/
theorem faultsArePrecise : Obligations.FaultsArePrecise := by
  unfold Obligations.FaultsArePrecise
  intro s t k hf h ht
  obtain ⟨-, ⟨-, rfl⟩ | ⟨-, rfl⟩ | ⟨i, -, hi⟩⟩ := step_cases s t h
  · cases ht.symm.trans hf
  · obtain rfl : FaultKind.illegalInstruction s.pc = k := Option.some.inj ht
    exact ⟨rfl, .inl rfl⟩
  · rcases exec_fault_precise i s t hi with hsame | rfl
    · cases ht.symm.trans (hsame.trans hf)
    · obtain rfl : FaultKind.wordOverflow s.pc = k := Option.some.inj ht
      exact ⟨rfl, .inr rfl⟩

/-- Settles O14: a slot is read from program memory alone, which no step writes. -/
theorem stepWritesNoProgramSlot : Obligations.StepWritesNoProgramSlot := by
  unfold Obligations.StepWritesNoProgramSlot
  intro s t h
  obtain ⟨hparams, hpmem⟩ := step_params_pmem s t h
  exact ⟨hparams, fun k => congrArg (memRead Slot.empty · k) hpmem⟩

/-- Settles O6: the slot is fetched and dispatched. -/
theorem stepRunsTheDecodedInstruction : Obligations.StepRunsTheDecodedInstruction := by
  unfold Obligations.StepRunsTheDecodedInstruction
  exact step_of_decode

/-- Settles O8: the fetch finds `pc` outside program memory, and the step stops the machine. -/
theorem stepOutsideProgramMemoryHalts : Obligations.StepOutsideProgramMemoryHalts := by
  unfold Obligations.StepOutsideProgramMemoryHalts
  exact step_of_outOfBounds

/-- Settles O9: the empty slot decodes to no instruction, and the step stops the machine. -/
theorem stepAtAnEmptySlotHalts : Obligations.StepAtAnEmptySlotHalts := by
  unfold Obligations.StepAtAnEmptySlotHalts
  exact step_of_empty

/-- Settles O10: a slot with a defect is one the decoder calls illegal, and the step raises the fault for it. -/
theorem stepAtAnIllegalSlotFaults : Obligations.StepAtAnIllegalSlotFaults := by
  unfold Obligations.StepAtAnIllegalSlotFaults
  intro s hf h0 hpc hslot
  exact step_of_fetch_illegal s hf (s.fetch_of_defect h0 hpc hslot)

/-- Settles O11: the fault is the first thing a step, the run loop and a load test. -/
theorem faultedMachineNeverChanges : Obligations.FaultedMachineNeverChanges := by
  unfold Obligations.FaultedMachineNeverChanges
  intro s k h
  exact ⟨step_of_faulted s k h, s.hostStep_of_faulted k h, s.runFor_of_faulted k h, s.load_of_faulted k h, rfl⟩

/-! ### An instruction placed for fetch -/

theorem State.inv_iff (s : State) : s.inv = true ↔ (1 ≤ s.params.pcap ∧ 1 ≤ s.params.dcap)
    ∧ (Memory.wf Slot.empty s.pmem = true ∧ memBelow s.params.pcap s.pmem = true)
    ∧ (Memory.wf 0 s.dmem = true ∧ memBelow s.params.dcap s.dmem = true) ∧ (s.fault = none ∨ s.running = false) := by
  simp [State.inv, Params.wellFormed, and_assoc]

/-- A placed slot is at a `pc` inside program memory, on a machine that is not faulted, and reads back. -/
theorem State.placeAtPc_spec (s : State) (sl : Slot) (hinv : s.inv = true) :
    (s.placeAtPc sl).fault = none ∧ 0 ≤ (s.placeAtPc sl).pc ∧ (s.placeAtPc sl).pc < (s.placeAtPc sl).params.pcap
      ∧ (s.placeAtPc sl).slotAt (s.placeAtPc sl).pc.toNat = sl := by
  obtain ⟨⟨hpcap, -⟩, ⟨hpmem, -⟩, -⟩ := s.inv_iff.mp hinv
  have hpc : 0 ≤ (s.placeAtPc sl).pc ∧ (s.placeAtPc sl).pc < (s.placeAtPc sl).params.pcap := by
    change 0 ≤ (if s.pcInBounds then s.pc else 0) ∧ (if s.pcInBounds then s.pc else 0) < (s.params.pcap : Int)
    split
    · next hin => exact s.pcInBounds_iff.mp hin
    · omega
  exact ⟨rfl, hpc.1, hpc.2, memRead_memWrite_same Slot.empty s.pmem _ sl hpmem⟩

theorem decodeTableWord_eq_some (nbits w : Nat) (i : Instr) (h : decodeTableWord nbits w = some i) :
    decode (slotOfWord nbits w) = .instr i := by
  unfold decodeTableWord at h
  split at h
  · next hd => cases h; exact hd
  · cases h
  · cases h

/-- Settles O7: the placed slot is the one the step fetches. -/
theorem tableWordRunsAtTheNextStep : Obligations.TableWordRunsAtTheNextStep := by
  unfold Obligations.TableWordRunsAtTheNextStep
  intro s nbits w i hinv hw
  obtain ⟨hf, h0, hpc, hslot⟩ := s.placeAtPc_spec (slotOfWord nbits w) hinv
  have hd : decode ((s.withFetchWord nbits w).slotAt (s.withFetchWord nbits w).pc.toNat) = .instr i :=
    (congrArg decode hslot).trans (decodeTableWord_eq_some nbits w i hw)
  exact ⟨step_of_decode _ i hf h0 hpc hd, rfl, rfl, rfl⟩

end Sys2Proof.Machine
end

section
/-!
What an instruction's effect depends on, and what it reaches. An instruction reads registers and perhaps a cell, and
then ends in one of five ways; `Ending` is that way with the values read. Two states in which the instruction reads the
same give it one ending (`exec_same_ending`). So the finite machine can be compared with the unbounded one
(60_exceptions.md R135), and two states that differ in registers an instruction does not read (10_state.md R18).
-/

namespace Sys2Proof.Machine

open Sys2Proof

/-! ### Endings -/

/-- The ways an instruction ends, with the values it read from the state before it. -/
inductive Ending where
  /-- `pc` advances. -/
  | plain
  /-- `pc` advances and the machine stops. -/
  | halt
  /-- `pc` is set. -/
  | jump (target : Int)
  /-- A register is written. -/
  | reg (rd : Reg) (v : Int)
  /-- The data cell at an address is written. -/
  | cell (addr v : Int)

/-- The effect of an ending, by the shared operations. -/
def Ending.finish (e : Ending) (s : State) : Host.Outcome State Fault Refusal :=
  match e with
  | .plain => finishPlain s
  | .halt => finishHalt s
  | .jump target => finishPc s target
  | .reg rd v => finishReg s rd v
  | .cell addr v => finishCell s addr v

/-- The register an ending writes. -/
def Ending.regDest (e : Ending) : Option Reg :=
  match e with
  | .reg rd _ => some rd
  | .plain | .halt | .jump _ | .cell _ _ => none

/-- The data address an ending writes to. -/
def Ending.cellDest (e : Ending) : Option Int :=
  match e with
  | .cell addr _ => some addr
  | .plain | .halt | .jump _ | .reg _ _ => none

theorem Ending.regDest_or_cellDest_eq_none (e : Ending) : e.regDest = none ∨ e.cellDest = none := by
  cases e with
  | reg rd v => exact .inr rfl
  | _ => exact .inl rfl

/-- How a conditional jump ends where its register holds `v`. -/
def jumpEnding (c : Cond) (v target : Int) : Ending :=
  if condHolds c v then .jump target else .plain

theorem jumpIf_eq_finish (c : Cond) (rs : Reg) (target : Int) (s : State) :
    jumpIf c rs target s = (jumpEnding c (s.regs.get rs) target).finish s := by
  unfold jumpIf jumpEnding
  split <;> rfl

theorem jumpEnding_regDest (c : Cond) (v target : Int) : (jumpEnding c v target).regDest = none := by
  unfold jumpEnding
  split <;> rfl

theorem jumpEnding_cellDest (c : Cond) (v target : Int) : (jumpEnding c v target).cellDest = none := by
  unfold jumpEnding
  split <;> rfl

/-! ### States in which an instruction reads the same -/

/-- What an instruction that reads the registers `rs` can read of `s` it reads of `s'` too. -/
def State.readsAlike (rs : List Reg) (s s' : State) : Prop :=
  s'.dmem = s.dmem ∧ s'.params.dcap = s.params.dcap ∧ ∀ r ∈ rs, s'.regs.get r = s.regs.get r

theorem State.readsAlike_refl (rs : List Reg) (s : State) : s.readsAlike rs s := ⟨rfl, rfl, fun _ _ => rfl⟩

theorem State.readsAlike_unbounded (rs : List Reg) (s : State) : s.readsAlike rs s.unbounded :=
  ⟨rfl, rfl, fun _ _ => rfl⟩

theorem State.readCell_of_readsAlike (rs : List Reg) (s s' : State) (addr : Int) (h : s.readsAlike rs s') :
    s'.readCell addr = s.readCell addr := by
  obtain ⟨hdmem, hdcap, -⟩ := h
  simp [State.readCell, State.cellIndex, hdmem, hdcap]

/-- The instruction `i` ends in one way on both states, and that way writes the destination of the table (R18, R26). -/
def EndsAlike (i : Instr) (s s' : State) : Prop :=
  ∃ e : Ending, exec i s = e.finish s ∧ exec i s' = e.finish s' ∧ regWritten i = e.regDest
    ∧ (storeOperand i).map s.effAddr = e.cellDest

theorem endsAlike_of_jumpIf (i : Instr) (c : Cond) (rs : Reg) (target : Int) (s s' : State)
    (hexec : ∀ s, exec i s = jumpIf c rs target s) (hreg : regWritten i = none) (hstore : storeOperand i = none)
    (hrs : s'.regs.get rs = s.regs.get rs) : EndsAlike i s s' := by
  refine ⟨jumpEnding c (s.regs.get rs) target, ?_, ?_, ?_, ?_⟩
  · rw [hexec, jumpIf_eq_finish]
  · rw [hexec, jumpIf_eq_finish, hrs]
  · rw [hreg, jumpEnding_regDest]
  · rw [hstore, jumpEnding_cellDest, Option.map_none]

/-- The table of what an instruction reads is complete (R18). -/
theorem exec_same_ending (i : Instr) (s s' : State) (h : s.readsAlike (regsRead i) s') : EndsAlike i s s' := by
  have hcell (addr : Int) : s'.readCell addr = s.readCell addr := s.readCell_of_readsAlike _ s' addr h
  obtain ⟨-, -, hregs⟩ := h
  cases i with
  | nop => exact ⟨.plain, rfl, rfl, rfl, rfl⟩
  | hlt => exact ⟨.halt, rfl, rfl, rfl, rfl⟩
  | jmp target => exact ⟨.jump target, rfl, rfl, rfl, rfl⟩
  | jz rs target =>
    exact endsAlike_of_jumpIf _ .zero rs target s s' (fun _ => rfl) rfl rfl (hregs rs List.mem_cons_self)
  | jn rs target =>
    exact endsAlike_of_jumpIf _ .negative rs target s s' (fun _ => rfl) rfl rfl (hregs rs List.mem_cons_self)
  | jp rs target =>
    exact endsAlike_of_jumpIf _ .positive rs target s s' (fun _ => rfl) rfl rfl (hregs rs List.mem_cons_self)
  | stAddr rs addr =>
    have hrs : s'.regs.get rs = s.regs.get rs := hregs rs List.mem_cons_self
    exact ⟨.cell addr _, rfl, congrArg (finishCell s' addr) hrs, rfl, rfl⟩
  | stInd rs ri =>
    have hrs : s'.regs.get rs = s.regs.get rs := hregs rs List.mem_cons_self
    have hri : s'.regs.get ri = s.regs.get ri := hregs ri (List.mem_cons_of_mem _ List.mem_cons_self)
    exact ⟨.cell _ _, rfl, congrArg₂ (finishCell s') hri hrs, rfl, rfl⟩
  | _ =>
    refine ⟨.reg _ _, rfl, congrArg (finishReg s' _) ?_, rfl, rfl⟩
    simp_all [regsRead, State.srcVal, State.effAddr]

/-- The ending of an instruction on one state. -/
theorem exec_ending (i : Instr) (s : State) :
    ∃ e : Ending, exec i s = e.finish s ∧ regWritten i = e.regDest ∧ (storeOperand i).map s.effAddr = e.cellDest := by
  obtain ⟨e, he, -, hreg, hcell⟩ := exec_same_ending i s s (s.readsAlike_refl _)
  exact ⟨e, he, hreg, hcell⟩

/-- No instruction writes both a register and a cell (10_state.md R18, R26). -/
theorem regWritten_or_storeOperand_eq_none (i : Instr) (s : State) : regWritten i = none ∨ storeOperand i = none := by
  obtain ⟨e, -, hreg, hcell⟩ := exec_ending i s
  rw [hreg]
  exact e.regDest_or_cellDest_eq_none.imp_right fun h => Option.map_eq_none_iff.mp (hcell.trans h)

/-! ### The finite and the unbounded machine -/

/-- The value an ending wrote, as the state `u` after it holds it, fits the word of `s`. -/
def Ending.WrittenFits (e : Ending) (s u : State) : Prop :=
  (∀ rd, e.regDest = some rd → fits s.params (u.regs.get rd) = true)
    ∧ ∀ addr, e.cellDest = some addr → fits s.params (u.readCell addr) = true

/-- An ending wrote a value, as the state `u` after it holds it, that does not fit the word of `s`. -/
def Ending.WrittenOverflows (e : Ending) (s u : State) : Prop :=
  (∃ rd, e.regDest = some rd ∧ fits s.params (u.regs.get rd) = false)
    ∨ ∃ addr, e.cellDest = some addr ∧ fits s.params (u.readCell addr) = false

/-- `t` is `u` on the finite machine, or the overflow of `s`, as the value written fits or does not. -/
def Ending.Refines (e : Ending) (s t u : State) : Prop :=
  (t = { u with params := s.params } ∧ e.WrittenFits s u)
    ∨ (t = s.raiseFault (.wordOverflow s.pc) ∧ e.WrittenOverflows s u)

/-- An ending that writes no register and no cell does not look at the word. -/
theorem Ending.refines_of_no_dest (e : Ending) (s t u : State) (ht : t = { u with params := s.params })
    (hreg : e.regDest = none) (hcell : e.cellDest = none) : e.Refines s t u :=
  .inl ⟨ht, by simp [hreg], by simp [hcell]⟩

theorem Ending.reg_refines (s t u : State) (rd : Reg) (v : Int) (ht : finishReg s rd v = .next t)
    (hu : finishReg s.unbounded rd v = .next u) : (Ending.reg rd v).Refines s t u := by
  rw [finishReg_of_fits s.unbounded rd v (fits_unbounded _ v rfl)] at hu
  cases hu
  have hread : (s.unbounded.advance.setReg rd v).regs.get rd = v := Regs.get_set_same _ rd v
  rcases finishReg_cases s t rd v ht with ⟨hfit, rfl⟩ | ⟨hfit, rfl⟩
  · refine .inl ⟨rfl, ?_, fun _ h => by cases h⟩
    rintro _ ⟨⟩
    rwa [hread]
  · exact .inr ⟨rfl, .inl ⟨rd, rfl, by rwa [hread]⟩⟩

theorem Ending.cell_refines (s t u : State) (addr v : Int) (hw : Memory.wf 0 s.dmem = true)
    (ht : finishCell s addr v = .next t) (hu : finishCell s.unbounded addr v = .next u) :
    (Ending.cell addr v).Refines s t u := by
  rw [finishCell_of_fits s.unbounded addr v (fits_unbounded _ v rfl)] at hu
  cases hu
  have hread : (s.unbounded.advance.writeCell addr v).readCell addr = v :=
    s.unbounded.advance.readCell_writeCell_same addr addr v hw rfl
  rcases finishCell_cases s t addr v ht with ⟨hfit, rfl⟩ | ⟨hfit, rfl⟩
  · refine .inl ⟨rfl, (fun _ h => by cases h), ?_⟩
    rintro _ ⟨⟩
    rwa [hread]
  · exact .inr ⟨rfl, .inr ⟨addr, rfl, by rwa [hread]⟩⟩

theorem Ending.finish_refines (e : Ending) (s t u : State) (hw : Memory.wf 0 s.dmem = true)
    (ht : e.finish s = .next t) (hu : e.finish s.unbounded = .next u) : e.Refines s t u := by
  cases e with
  | plain => cases ht; cases hu; exact Ending.refines_of_no_dest _ s _ _ rfl rfl rfl
  | halt => cases ht; cases hu; exact Ending.refines_of_no_dest _ s _ _ rfl rfl rfl
  | jump target => cases ht; cases hu; exact Ending.refines_of_no_dest _ s _ _ rfl rfl rfl
  | reg rd v => exact Ending.reg_refines s t u rd v ht hu
  | cell addr v => exact Ending.cell_refines s t u addr v hw ht hu

/-- Settles O16: both machines end the instruction in the same way, and a register or cell write is all that can tell
them apart. -/
theorem finiteWordsComputeTheSameOrFault : Obligations.FiniteWordsComputeTheSameOrFault := by
  unfold Obligations.FiniteWordsComputeTheSameOrFault
  intro i s t u hinv ht hu
  obtain ⟨e, hs, hs', hreg, hcell⟩ := exec_same_ending i s s.unbounded (s.readsAlike_unbounded _)
  have hstore (addr : Addr) (h : storeOperand i = some addr) : e.cellDest = some (s.effAddr addr) := by
    rw [← hcell, h, Option.map_some]
  rcases e.finish_refines s t u (s.dmem_wf_of_inv hinv) (hs.symm.trans ht) (hs'.symm.trans hu) with
    ⟨htu, hfitReg, hfitCell⟩ | ⟨htu, hover⟩
  · exact .inl ⟨htu, fun rd h => hfitReg rd (hreg.symm.trans h), fun addr h => hfitCell _ (hstore addr h)⟩
  · refine .inr ⟨htu, hover.imp ?_ ?_⟩
    · rintro ⟨rd, hrd, hfit⟩
      exact ⟨rd, hreg.trans hrd, hfit⟩
    · rintro ⟨a, ha, hfit⟩
      obtain ⟨addr, haddr, rfl⟩ := Option.map_eq_some_iff.mp (hcell.trans ha)
      exact ⟨addr, haddr, hfit⟩

/-! ### States that differ in unread registers -/

theorem State.readsAlike_of_agreeOn (rs : List Reg) (s s' : State) (h : s.agreeOn rs s') : s.readsAlike rs s' := by
  obtain ⟨heq, hregs⟩ := h
  rw [heq]
  exact ⟨rfl, rfl, fun r hr => (hregs r hr).symm⟩

/-- The states agree on everything but the registers, and on `rd` where an ending writes it. -/
def Ending.LeavesAlike (e : Ending) (t t' : State) : Prop :=
  t' = { t with regs := t'.regs } ∧ (t.fault = none → ∀ rd, e.regDest = some rd → t'.regs.get rd = t.regs.get rd)

/-- An ending on states that differ in registers alone leaves states that do, and writes the same value. -/
theorem Ending.finish_leavesAlike (e : Ending) (s : State) (x : Regs) :
    ∃ t t', e.finish s = .next t ∧ e.finish { s with regs := x } = .next t' ∧ e.LeavesAlike t t' := by
  cases e with
  | plain => exact ⟨_, _, rfl, rfl, rfl, fun _ _ h => by cases h⟩
  | halt => exact ⟨_, _, rfl, rfl, rfl, fun _ _ h => by cases h⟩
  | jump target => exact ⟨_, _, rfl, rfl, rfl, fun _ _ h => by cases h⟩
  | reg rd v =>
    cases hfit : fits s.params v with
    | true =>
      refine ⟨_, _, finishReg_of_fits s rd v hfit, finishReg_of_fits _ rd v hfit, rfl, ?_⟩
      rintro - _ ⟨⟩
      exact (Regs.get_set_same x rd v).trans (Regs.get_set_same s.regs rd v).symm
    | false =>
      exact ⟨_, _, finishReg_of_overflow s rd v hfit, finishReg_of_overflow _ rd v hfit, rfl, fun h => by cases h⟩
  | cell addr v =>
    cases hfit : fits s.params v with
    | true =>
      exact ⟨_, _, finishCell_of_fits s addr v hfit, finishCell_of_fits _ addr v hfit, rfl, fun _ _ h => by cases h⟩
    | false =>
      exact ⟨_, _, finishCell_of_overflow s addr v hfit, finishCell_of_overflow _ addr v hfit, rfl, fun h => by cases h⟩

/-- Settles O49: the instruction ends in one way on both states, since it reads the same on both. -/
theorem onlyTheNamedRegistersAreRead : Obligations.OnlyTheNamedRegistersAreRead := by
  unfold Obligations.OnlyTheNamedRegistersAreRead
  intro i s s' hagree _
  obtain ⟨e, hs, hs', hreg, -⟩ := exec_same_ending i s s' (s.readsAlike_of_agreeOn _ s' hagree)
  obtain ⟨t, t', ht, ht', halike, hrd⟩ := e.finish_leavesAlike s s'.regs
  rw [← hagree.1] at ht'
  refine ⟨t, t', hs.trans ht, hs'.trans ht', ?_, ?_, ?_, ?_, ?_, fun hf rd h => hrd hf rd (hreg.symm.trans h)⟩ <;>
    rw [halike]

/-! ### What an instruction leaves unchanged -/

/-- An instruction changes no register but its destination (R18). -/
theorem exec_regs_frame (i : Instr) (s t : State) (r : Reg) (h : exec i s = .next t) (hr : regWritten i ≠ some r) :
    t.regs.get r = s.regs.get r := by
  rcases exec_cases i s t h with rfl | ⟨-, rfl⟩ | ⟨_, rfl⟩ | ⟨rd, v, hrd, -, rfl⟩ | ⟨_, _, -, -, rfl⟩ | ⟨_, -, rfl⟩
  · rfl
  · rfl
  · rfl
  · exact Regs.get_set_other s.regs rd r v fun hsame => hr (hsame ▸ hrd)
  · rfl
  · rfl

/-- An instruction changes no cell but the one its store operand reaches (20_memory.md section 4). -/
theorem exec_dmem_frame (i : Instr) (s t : State) (k : Nat) (hw : Memory.wf 0 s.dmem = true) (h : exec i s = .next t)
    (hk : ∀ addr, storeOperand i = some addr → s.cellIndex (s.effAddr addr) ≠ k) :
    memRead 0 t.dmem k = memRead 0 s.dmem k := by
  rcases exec_cases i s t h with rfl | ⟨-, rfl⟩ | ⟨_, rfl⟩ | ⟨_, _, -, -, rfl⟩ | ⟨addr, v, haddr, -, rfl⟩ | ⟨_, -, rfl⟩
  · rfl
  · rfl
  · rfl
  · rfl
  · exact memRead_memWrite_other 0 s.dmem _ k v hw (hk addr haddr).symm
  · rfl

theorem exec_readCell_frame (i : Instr) (s t : State) (b : Int) (hw : Memory.wf 0 s.dmem = true)
    (h : exec i s = .next t)
    (hb : ∀ addr, storeOperand i = some addr → s.cellIndex b ≠ s.cellIndex (s.effAddr addr)) :
    t.readCell b = s.readCell b := by
  obtain ⟨hparams, -⟩ := exec_params_pmem i s t h
  have hindex : t.cellIndex b = s.cellIndex b := by simp [State.cellIndex, hparams]
  rw [State.readCell, hindex]
  exact exec_dmem_frame i s t _ hw h fun addr haddr => (hb addr haddr).symm

/-- Only `HLT` and an overflow stop a machine; an overflow that leaves the fault state as it was found the machine
faulted, so stopped already (60_exceptions.md R133). -/
theorem exec_running_frame (i : Instr) (s t : State) (hinv : s.inv = true) (h : exec i s = .next t) (hi : i ≠ .hlt)
    (hf : t.fault = s.fault) : t.running = s.running := by
  rcases exec_cases i s t h with rfl | ⟨hhlt, rfl⟩ | ⟨_, rfl⟩ | ⟨_, _, -, -, rfl⟩ | ⟨_, _, -, -, rfl⟩ | ⟨_, -, rfl⟩
  · rfl
  · exact absurd hhlt hi
  · rfl
  · rfl
  · rfl
  · obtain ⟨-, -, -, hnone | hstopped⟩ := s.inv_iff.mp hinv
    · cases hf.trans hnone
    · exact hstopped.symm

/-- Settles O48: the frame of each part of the state. -/
theorem onlyTheNamedDestinationChanges : Obligations.OnlyTheNamedDestinationChanges := by
  unfold Obligations.OnlyTheNamedDestinationChanges
  intro i s t hinv h
  have hw := s.dmem_wf_of_inv hinv
  obtain ⟨hparams, hpmem⟩ := exec_params_pmem i s t h
  refine ⟨fun r => exec_regs_frame i s t r h, ?_, ?_, hparams, ?_, regWritten_or_storeOperand_eq_none i s,
    exec_running_frame i s t hinv h⟩
  · intro hnone addr
    exact exec_readCell_frame i s t addr hw h fun a ha => by cases hnone.symm.trans ha
  · intro addr haddr b hb
    refine exec_readCell_frame i s t b hw h fun a ha => ?_
    obtain rfl : addr = a := Option.some.inj (haddr.symm.trans ha)
    exact hb
  · intro k
    exact congrArg (memRead Slot.empty · k) hpmem

end Sys2Proof.Machine
end

section
/-!
What every step keeps, and with it every sequence of host operations: the invariant (10_state.md sections 3 to 5), the
range of the values (60_exceptions.md R135), the absence of faults of a legal program, and a cell nobody stores to. Then
what a run returns in (40_execution_cycle.md section 4), and how the control state moves (section 1 there).
-/

namespace Sys2Proof.Machine

open Sys2Proof

/-! ### Induction over runs and host operations -/

/-- What every step keeps, the host's step keeps, since it answers the next state or the old one (R77, R83). -/
theorem State.hostStep_induction (P : State → Prop) (hstep : ∀ s t, P s → step s = .next t → P t) (s : State)
    (hs : P s) : P s.hostStep := by
  unfold State.hostStep
  split
  · next t ht => exact hstep s t hs ht
  · exact hs
  · exact hs

/-- What every step keeps, the run loop keeps. -/
theorem State.runFor_induction (P : State → Prop) (hstep : ∀ s t, P s → step s = .next t → P t) (fuel : Nat) (s : State)
    (hs : P s) : P (s.runFor fuel) := by
  induction fuel generalizing s with
  | zero => exact hs
  | succ n ih =>
    cases hr : s.runs with
    | false => rwa [s.runFor_stopped (n + 1) hr]
    | true => rw [s.runFor_succ n hr]; exact ih _ (s.hostStep_induction P hstep hs)

/-- What every step, every load and every reset keep, every sequence of host operations keeps. -/
theorem State.applyAll_induction (P : State → Prop) (hstep : ∀ s t, P s → step s = .next t → P t)
    (hload : ∀ s prog data, P s → P (s.load prog data)) (hreset : ∀ s, P s → P s.rebuild) (ops : List HostOp)
    (s : State) (hs : P s) : P (s.applyAll ops) := by
  induction ops generalizing s with
  | nil => exact hs
  | cons op rest ih =>
    apply ih
    cases op with
    | step => exact s.hostStep_induction P hstep hs
    | run fuel => exact s.runFor_induction P hstep fuel hs
    | load prog data => exact hload s prog data hs
    | reset => exact hreset s hs

/-! ### What an instruction and a step write -/

/-- An instruction leaves the registers, or writes one value that fits. -/
theorem exec_regs (i : Instr) (s t : State) (h : exec i s = .next t) :
    t.regs = s.regs ∨ ∃ rd v, fits s.params v = true ∧ t.regs = s.regs.set rd v := by
  rcases exec_cases i s t h with rfl | ⟨-, rfl⟩ | ⟨_, rfl⟩ | ⟨rd, v, -, hfit, rfl⟩ | ⟨_, _, -, -, rfl⟩ | ⟨_, -, rfl⟩
  · exact .inl rfl
  · exact .inl rfl
  · exact .inl rfl
  · exact .inr ⟨rd, v, hfit, rfl⟩
  · exact .inl rfl
  · exact .inl rfl

/-- An instruction leaves data memory, or writes one value that fits at the index of an address. -/
theorem exec_dmem (i : Instr) (s t : State) (h : exec i s = .next t) :
    t.dmem = s.dmem ∨ ∃ addr v, fits s.params v = true ∧ t.dmem = memWrite 0 s.dmem (s.cellIndex addr) v := by
  rcases exec_cases i s t h with rfl | ⟨-, rfl⟩ | ⟨_, rfl⟩ | ⟨_, _, -, -, rfl⟩ | ⟨addr, v, -, hfit, rfl⟩ | ⟨_, -, rfl⟩
  · exact .inl rfl
  · exact .inl rfl
  · exact .inl rfl
  · exact .inl rfl
  · exact .inr ⟨s.effAddr addr, v, hfit, rfl⟩
  · exact .inl rfl

theorem step_regs (s t : State) (h : step s = .next t) :
    t.regs = s.regs ∨ ∃ rd v, fits s.params v = true ∧ t.regs = s.regs.set rd v := by
  obtain ⟨-, ⟨-, rfl⟩ | ⟨-, rfl⟩ | ⟨i, -, hi⟩⟩ := step_cases s t h
  · exact .inl rfl
  · exact .inl rfl
  · exact exec_regs i s t hi

theorem step_dmem (s t : State) (h : step s = .next t) :
    t.dmem = s.dmem ∨ ∃ addr v, fits s.params v = true ∧ t.dmem = memWrite 0 s.dmem (s.cellIndex addr) v := by
  obtain ⟨-, ⟨-, rfl⟩ | ⟨-, rfl⟩ | ⟨i, -, hi⟩⟩ := step_cases s t h
  · exact .inl rfl
  · exact .inl rfl
  · exact exec_dmem i s t hi

/-- The state after a step is not faulted, or it is stopped. -/
theorem step_fault_none_or_stopped (s t : State) (h : step s = .next t) : t.fault = none ∨ t.running = false := by
  obtain ⟨hf, ⟨-, rfl⟩ | ⟨-, rfl⟩ | ⟨i, -, hi⟩⟩ := step_cases s t h
  · exact .inr rfl
  · exact .inr rfl
  · rcases exec_fault_precise i s t hi with hsame | rfl
    · exact .inl (hsame.trans hf)
    · exact .inr rfl

/-! ### The invariant -/

theorem State.fresh_inv (p : Params) (hp : p.wellFormed = true) : (State.fresh p).inv = true := by
  rw [State.inv_iff]
  have hcap : 1 ≤ p.pcap ∧ 1 ≤ p.dcap := by simpa [Params.wellFormed] using hp
  exact ⟨hcap, ⟨rfl, rfl⟩, ⟨rfl, rfl⟩, .inl rfl⟩

theorem State.raiseFault_inv (s : State) (k : FaultKind) (h : s.inv = true) : (s.raiseFault k).inv = true := by
  rw [State.inv_iff] at h ⊢
  obtain ⟨hcap, hpmem, hdmem, -⟩ := h
  exact ⟨hcap, hpmem, hdmem, .inr rfl⟩

theorem State.install_inv (s : State) (prog : List Slot) (data : List Int) (h : s.inv = true) (hf : s.fault = none)
    (hprog : prog.length ≤ s.params.pcap) (hdata : data.length ≤ s.params.dcap) : (s.install prog data).inv = true := by
  obtain ⟨hcap, -⟩ := s.inv_iff.mp h
  rw [State.inv_iff]
  exact ⟨hcap, ⟨Memory.wf_memOfList Slot.empty prog, memBelow_memOfList Slot.empty _ 0 prog (by simpa using hprog)⟩,
    ⟨Memory.wf_memOfList 0 data, memBelow_memOfList 0 _ 0 data (by simpa using hdata)⟩, .inl hf⟩

theorem State.load_inv (s : State) (prog : List Slot) (data : List Int) (h : s.inv = true) :
    (s.load prog data).inv = true := by
  rcases load_cases s prog data with ⟨_, -, hl⟩ | ⟨-, -, hl⟩ | ⟨-, -, -, hl⟩ | ⟨hf, hprog, hdata, -, hl⟩
      | ⟨-, -, -, -, hl⟩ <;>
    rw [hl]
  · exact h
  · exact s.raiseFault_inv _ h
  · exact s.raiseFault_inv _ h
  · exact s.install_inv prog data h hf hprog hdata
  · exact s.raiseFault_inv _ h

theorem State.rebuild_inv (s : State) (h : s.inv = true) : s.rebuild.inv = true := by
  obtain ⟨hcap, -⟩ := s.inv_iff.mp h
  exact State.fresh_inv s.params (by simpa [Params.wellFormed] using hcap)

/-- Settles O19: a cell written is one an address reaches, so it is inside the capacity, and a write keeps the canonical
form. -/
theorem everyStepKeepsTheInvariant : Obligations.EveryStepKeepsTheInvariant := by
  unfold Obligations.EveryStepKeepsTheInvariant
  intro s t hinv h
  obtain ⟨hcap, hpmem, ⟨hwf, hbelow⟩, -⟩ := s.inv_iff.mp hinv
  obtain ⟨hparams, hpmem'⟩ := step_params_pmem s t h
  rw [State.inv_iff, hparams, hpmem']
  refine ⟨hcap, hpmem, ?_, step_fault_none_or_stopped s t h⟩
  rcases step_dmem s t h with hsame | ⟨addr, v, -, hwrite⟩
  · rw [hsame]
    exact ⟨hwf, hbelow⟩
  · rw [hwrite]
    exact ⟨Memory.wf_memWrite 0 s.dmem _ v hwf, memBelow_memWrite 0 _ s.dmem _ v (s.cellIndex_lt addr hcap.2) hbelow⟩

/-- Settles O20: steps keep the invariant, and so do a load, whether it installs or faults, and a reset. -/
theorem everyHostSequenceKeepsTheInvariant : Obligations.EveryHostSequenceKeepsTheInvariant := by
  unfold Obligations.EveryHostSequenceKeepsTheInvariant
  exact State.applyAll_induction (·.inv = true) everyStepKeepsTheInvariant State.load_inv State.rebuild_inv

/-! ### The range of the values -/

theorem mem_memWrite {α : Type} [DecidableEq α] (blank : α) (m : Memory α) (k : Nat) (v : α) (e : Nat × α)
    (h : e ∈ memWrite blank m k v) : e ∈ m ∨ e.2 = v := by
  induction m with
  | nil =>
    unfold memWrite at h
    split at h
    · exact .inl h
    · obtain rfl := List.mem_singleton.mp h
      exact .inr rfl
  | cons a rest ih =>
    unfold memWrite at h
    split at h
    · split at h
      · exact .inl h
      · rcases List.mem_cons.mp h with rfl | hmem
        · exact .inr rfl
        · exact .inl hmem
    · split at h
      · split at h
        · exact .inl (List.mem_cons_of_mem a h)
        · rcases List.mem_cons.mp h with rfl | hmem
          · exact .inr rfl
          · exact .inl (List.mem_cons_of_mem a hmem)
      · rcases List.mem_cons.mp h with rfl | hmem
        · exact .inl List.mem_cons_self
        · exact (ih hmem).imp_left (List.mem_cons_of_mem a)

theorem mem_memOfList {α : Type} [DecidableEq α] (blank : α) (start : Nat) (xs : List α) (e : Nat × α)
    (h : e ∈ memOfList blank start xs) : e.2 ∈ xs := by
  induction xs generalizing start with
  | nil => cases h
  | cons x rest ih =>
    unfold memOfList at h
    split at h
    · exact List.mem_cons_of_mem x (ih _ h)
    · rcases List.mem_cons.mp h with rfl | hmem
      · exact List.mem_cons_self
      · exact List.mem_cons_of_mem x (ih _ hmem)

theorem Regs.forall_get_set (P : Int → Prop) (x : Regs) (rd : Reg) (v : Int) (hx : ∀ r, P (x.get r)) (hv : P v)
    (r : Reg) : P ((x.set rd v).get r) := by
  by_cases hr : r = rd
  · rw [hr, Regs.get_set_same]
    exact hv
  · rw [Regs.get_set_other x rd r v hr]
    exact hx r

theorem step_valuesFit (s t : State) (hfit : s.valuesFit = true) (h : step s = .next t) : t.valuesFit = true := by
  obtain ⟨hregs, hdmem, hpmem⟩ := s.valuesFit_iff.mp hfit
  obtain ⟨hparams, hpmem'⟩ := step_params_pmem s t h
  rw [State.valuesFit_iff, hparams, hpmem']
  refine ⟨?_, ?_, hpmem⟩
  · rcases step_regs s t h with hsame | ⟨rd, v, hv, hset⟩
    · rwa [hsame]
    · rw [hset]
      exact Regs.forall_get_set (fits s.params · = true) s.regs rd v hregs hv
  · rcases step_dmem s t h with hsame | ⟨addr, v, hv, hwrite⟩
    · rwa [hsame]
    · rw [hwrite]
      intro e he
      rcases mem_memWrite 0 s.dmem _ v e he with hmem | hval
      · exact hdmem e hmem
      · rwa [hval]

theorem State.install_valuesFit (s : State) (prog : List Slot) (data : List Int) (hfit : s.valuesFit = true)
    (himages : imagesFit s.params prog data = true) : (s.install prog data).valuesFit = true := by
  obtain ⟨hregs, -⟩ := s.valuesFit_iff.mp hfit
  obtain ⟨hprog, hdata⟩ := (imagesFit_iff _ _ _).mp himages
  rw [State.valuesFit_iff]
  exact ⟨hregs, fun e he => hdata _ (mem_memOfList 0 0 data e he),
    fun e he => hprog _ (mem_memOfList Slot.empty 0 prog e he)⟩

theorem State.load_valuesFit (s : State) (prog : List Slot) (data : List Int) (h : s.valuesFit = true) :
    (s.load prog data).valuesFit = true := by
  rcases load_cases s prog data with ⟨_, -, hl⟩ | ⟨-, -, hl⟩ | ⟨-, -, -, hl⟩ | ⟨-, -, -, hfit, hl⟩
      | ⟨-, -, -, -, hl⟩ <;>
    rw [hl]
  · exact h
  · exact h
  · exact h
  · exact s.install_valuesFit prog data h hfit
  · exact h

theorem State.fresh_regs_get (p : Params) (r : Reg) : (State.fresh p).regs.get r = 0 := by
  cases r <;> rfl

theorem State.fresh_valuesFit (p : Params) : (State.fresh p).valuesFit = true := by
  rw [State.valuesFit_iff]
  refine ⟨fun r => ?_, by simp, by simp⟩
  rw [State.fresh_regs_get]
  exact fits_zero p

/-- Settles O21: the tests of a write and of a load are all that is needed. -/
theorem everyStepKeepsValuesInRange : Obligations.EveryStepKeepsValuesInRange := by
  unfold Obligations.EveryStepKeepsValuesInRange
  exact ⟨step_valuesFit, State.applyAll_induction (·.valuesFit = true) step_valuesFit State.load_valuesFit
    fun s _ => State.fresh_valuesFit s.params⟩

/-- Settles O18: the fresh memories are empty, and every register holds 0. -/
theorem freshMachineHasTheInvariant : Obligations.FreshMachineHasTheInvariant := by
  unfold Obligations.FreshMachineHasTheInvariant
  exact ⟨fun p hp => ⟨State.fresh_inv p hp, State.fresh_valuesFit p⟩, State.fresh_inv _ rfl, State.fresh_valuesFit _⟩

/-- Settles O22: the values are those of `State.fresh`, where every memory index is unlisted. -/
theorem resetLeavesTheValuesOfTheSpec : Obligations.ResetLeavesTheValuesOfTheSpec := by
  unfold Obligations.ResetLeavesTheValuesOfTheSpec
  exact ⟨fun s => ⟨State.fresh_regs_get s.params, rfl, rfl, rfl, fun _ => rfl, fun _ => rfl, rfl⟩,
    State.fresh_regs_get Params.default, rfl, rfl, rfl, fun _ => rfl, fun _ => rfl, rfl⟩

/-- Settles O17: `k ≤ n / 2` and `2 * k ≤ n` say the same of natural numbers. -/
theorem wordRangeIsSymmetric : Obligations.WordRangeIsSymmetric := by
  unfold Obligations.WordRangeIsSymmetric
  refine ⟨?_, fits_unbounded⟩
  intro p v n hn
  rw [fits_finite p v n hn, maxOfTrits, Nat.le_div_iff_mul_le Nat.two_pos, Nat.mul_comm]

/-! ### Legal programs -/

/-- Every slot of a legal program reads as a legal slot, an unlisted one as the empty slot. -/
theorem State.slotAt_wellFormed (s : State) (k : Nat) (h : s.programLegal = true) :
    (s.slotAt k).fields.wellFormed = true := by
  rw [State.programLegal, List.all_eq_true] at h
  exact memRead_of_forall_mem (·.fields.wellFormed = true) Slot.empty s.pmem k (by decide) h

theorem State.fetch_ne_illegal (s : State) (h : s.programLegal = true) : s.fetch ≠ .illegal := by
  intro hfetch
  rcases fetch_cases s with ⟨-, hx⟩ | ⟨-, -, hx⟩ | ⟨-, hd, -⟩ | ⟨i, -, -, hx⟩
  · cases hfetch.symm.trans hx
  · cases hfetch.symm.trans hx
  · have hdefect := (decode_eq_illegal_iff _).mp hd
    exact Bool.false_ne_true (hdefect.symm.trans (s.slotAt_wellFormed _ h))
  · cases hfetch.symm.trans hx

/-- An unfaulted machine with unbounded words and a legal program. -/
def State.SafeToRun (s : State) : Prop :=
  s.params.wordTrits = none ∧ s.fault = none ∧ s.programLegal = true

theorem step_safeToRun (s t : State) (hs : s.SafeToRun) (h : step s = .next t) : t.SafeToRun := by
  obtain ⟨hwords, hf, hlegal⟩ := hs
  obtain ⟨hparams, hpmem⟩ := step_params_pmem s t h
  refine ⟨by rw [hparams, hwords], ?_, by rwa [State.programLegal, hpmem]⟩
  obtain ⟨-, ⟨-, rfl⟩ | ⟨hx, -⟩ | ⟨i, -, hi⟩⟩ := step_cases s t h
  · exact hf
  · exact absurd hx (s.fetch_ne_illegal hlegal)
  · rcases exec_fault i s t hi with hsame | ⟨-, hfinite⟩
    · rw [hsame, hf]
    · exact absurd hwords hfinite

/-- Settles O23: no slot is illegal and no word overflows, which is all that a step can fault on. -/
theorem legalProgramsNeverFault : Obligations.LegalProgramsNeverFault := by
  unfold Obligations.LegalProgramsNeverFault
  intro s hwords hf hlegal fuel
  obtain ⟨-, hnone, -⟩ := s.runFor_induction State.SafeToRun step_safeToRun fuel ⟨hwords, hf, hlegal⟩
  exact hnone

/-! ### A cell nobody stores to -/

theorem step_keeps_cell (s t : State) (k : Nat) (hinv : s.inv = true) (h : step s = .next t) (hk : ¬ s.storesTo k) :
    memRead 0 t.dmem k = memRead 0 s.dmem k := by
  obtain ⟨hf, ⟨-, rfl⟩ | ⟨-, rfl⟩ | ⟨i, hfetch, hi⟩⟩ := step_cases s t h
  · rfl
  · rfl
  · exact exec_dmem_frame i s t k (s.dmem_wf_of_inv hinv) hi fun addr haddr hindex =>
      hk ⟨i, addr, hf, hfetch, haddr, hindex⟩

theorem State.hostStep_keeps_cell (s : State) (k : Nat) (hinv : s.inv = true) (hk : ¬ s.storesTo k) :
    memRead 0 s.hostStep.dmem k = memRead 0 s.dmem k := by
  unfold State.hostStep
  split
  · next t ht => exact step_keeps_cell s t k hinv ht hk
  · rfl
  · rfl

/-- Settles O53: one step keeps the cell and the invariant, and the rest of the run is a run from the next state. -/
theorem cellKeepsItsValueUntilStoredTo : Obligations.CellKeepsItsValueUntilStoredTo := by
  unfold Obligations.CellKeepsItsValueUntilStoredTo
  intro n
  induction n with
  | zero => exact fun _ _ _ _ => rfl
  | succ n ih =>
    intro s k hinv hstores
    cases hr : s.runs with
    | false => rw [s.runFor_stopped (n + 1) hr]
    | true =>
      have hinv' : s.hostStep.inv = true := s.hostStep_induction (·.inv = true) everyStepKeepsTheInvariant hinv
      have hrest (m : Nat) (hm : m < n) : ¬ (s.hostStep.runFor m).storesTo k := by
        rw [← s.runFor_succ m hr]
        exact hstores (m + 1) (Nat.succ_lt_succ hm)
      calc memRead 0 (s.runFor (n + 1)).dmem k
          = memRead 0 (s.hostStep.runFor n).dmem k := by rw [s.runFor_succ n hr]
        _ = memRead 0 s.hostStep.dmem k := ih s.hostStep k hinv' hrest
        _ = memRead 0 s.dmem k := s.hostStep_keeps_cell k hinv (hstores 0 (Nat.succ_pos n))

/-! ### The return of a run -/

theorem State.runFor_add (s : State) (m n : Nat) : s.runFor (m + n) = (s.runFor m).runFor n := by
  induction m generalizing s with
  | zero => rw [Nat.zero_add, State.runFor_zero]
  | succ m ih =>
    cases hr : s.runs with
    | false => rw [s.runFor_stopped _ hr, s.runFor_stopped _ hr, s.runFor_stopped n hr]
    | true => rw [Nat.succ_add, s.runFor_succ _ hr, s.runFor_succ m hr, ih]

/-- More fuel than a run needs changes nothing. -/
theorem State.runFor_of_stopped_le (s : State) (m n : Nat) (hmn : m ≤ n) (h : (s.runFor m).runs = false) :
    s.runFor n = s.runFor m := by
  obtain ⟨j, rfl⟩ := Nat.exists_eq_add_of_le hmn
  rw [s.runFor_add, (s.runFor m).runFor_stopped j h]

theorem State.runs_eq_false_iff (s : State) : s.runs = false ↔ s.running = false ∨ s.fault ≠ none := by
  rw [State.runs, Bool.and_eq_false_iff, Option.isNone_eq_false_iff, Option.isSome_iff_ne_none]

/-- Settles O56: of two returns the one with less fuel has stopped, so the other is the same. -/
theorem runReturnsInAtMostOneState : Obligations.RunReturnsInAtMostOneState := by
  unfold Obligations.RunReturnsInAtMostOneState
  refine ⟨?_, ?_, ?_⟩
  · rintro s t u ⟨m, rfl, hm⟩ ⟨n, rfl, hn⟩
    rcases Nat.le_total m n with hmn | hnm
    · exact (s.runFor_of_stopped_le m n hmn hm).symm
    · exact s.runFor_of_stopped_le n m hnm hn
  · intro s hs
    exact ⟨0, rfl, s.runs_eq_false_iff.mpr hs⟩
  · rintro s t ⟨-, -, ht⟩
    cases hf : t.fault with
    | some k => exact .inr (by simp [State.faultedEnd, hf])
    | none =>
      have hstopped : t.running = false := (t.runs_eq_false_iff.mp ht).resolve_right (not_not_intro hf)
      exact .inl (by simp [State.normalEnd, hf, hstopped])

/-! ### The control state -/

theorem State.control_eq_run_iff (s : State) : s.control = .run ↔ s.fault = none ∧ s.running = true := by
  unfold State.control
  cases s.fault <;> cases s.running <;> simp

theorem State.control_eq_halt_iff (s : State) : s.control = .halt ↔ s.fault = none ∧ s.running = false := by
  unfold State.control
  cases s.fault <;> cases s.running <;> simp

theorem State.control_eq_fault_iff (s : State) : s.control = .fault ↔ ∃ k, s.fault = some k := by
  unfold State.control
  cases s.fault <;> cases s.running <;> simp

theorem State.raiseFault_control (s : State) (k : FaultKind) : (s.raiseFault k).control = .fault := rfl

/-- A machine that is not running is in `HALT` or `FAULT`. -/
theorem State.control_of_not_running (s : State) (h : s.running = false) : s.control = .halt ∨ s.control = .fault := by
  cases hf : s.fault with
  | none => exact .inl (s.control_eq_halt_iff.mpr ⟨hf, h⟩)
  | some k => exact .inr (s.control_eq_fault_iff.mpr ⟨k, hf⟩)

/-- No step leads to `RUN` from elsewhere: it needs an unfaulted machine and never sets `running` (R77, R79). -/
theorem step_control_run (s t : State) (h : step s = .next t) (ht : t.control = .run) : s.control = .run := by
  obtain ⟨hf, -⟩ := step_cases s t h
  obtain ⟨-, hrun⟩ := t.control_eq_run_iff.mp ht
  rcases step_running s t h with hsame | hstopped
  · exact s.control_eq_run_iff.mpr ⟨hf, hsame.symm.trans hrun⟩
  · cases hstopped.symm.trans hrun

theorem step_control_of_halt (s t : State) (h : step s = .next t) (hs : s.control = .halt) :
    t.control = .halt ∨ t.control = .fault := by
  obtain ⟨-, hstopped⟩ := s.control_eq_halt_iff.mp hs
  exact t.control_of_not_running ((step_running s t h).elim (·.trans hstopped) id)

/-- A load leads to `RUN` where both images fit, and to `FAULT` otherwise (R148). -/
theorem State.load_control (s : State) (prog : List Slot) (data : List Int) (hs : s.control ≠ .fault) :
    ((s.load prog data).control = .run ↔ prog.length ≤ s.params.pcap ∧ data.length ≤ s.params.dcap
        ∧ imagesFit s.params prog data = true)
      ∧ ((s.load prog data).control = .fault ↔ s.params.pcap < prog.length ∨ s.params.dcap < data.length
        ∨ imagesFit s.params prog data = false) := by
  rcases load_cases s prog data with ⟨k, hf, -⟩ | ⟨-, hprog, hl⟩ | ⟨-, -, hdata, hl⟩ | ⟨hf, hprog, hdata, hfit, hl⟩
      | ⟨-, -, -, hfit, hl⟩
  · exact absurd (s.control_eq_fault_iff.mpr ⟨k, hf⟩) hs
  · simp [hl, State.raiseFault_control, hprog]
  · simp [hl, State.raiseFault_control, hdata]
  · have hrun : (s.install prog data).control = .run := (State.control_eq_run_iff _).mpr ⟨hf, rfl⟩
    simp [hl, hrun, hprog, hdata, hfit]
  · simp [hl, State.raiseFault_control, hfit]

theorem State.apply_of_faulted (s : State) (op : HostOp) (hs : s.control = .fault) (hop : op ≠ .reset) :
    s.apply op = s := by
  obtain ⟨k, hk⟩ := s.control_eq_fault_iff.mp hs
  cases op with
  | step => exact s.hostStep_of_faulted k hk
  | run fuel => exact s.runFor_of_faulted k hk fuel
  | load prog data => exact s.load_of_faulted k hk prog data
  | reset => exact absurd rfl hop

/-- From `HALT` neither a step nor a run leads to `RUN`. -/
theorem State.apply_control_run_of_halt (s : State) (op : HostOp) (hs : s.control = .halt)
    (h : (s.apply op).control = .run) : op = .reset ∨ ∃ prog data, op = .load prog data := by
  have hrun : s.control ≠ .run := by simp [hs]
  cases op with
  | step =>
    exact absurd h (s.hostStep_induction (·.control ≠ .run) (fun s t hs ht h => hs (step_control_run s t ht h)) hrun)
  | run fuel =>
    exact absurd h (s.runFor_induction (·.control ≠ .run) (fun s t hs ht h => hs (step_control_run s t ht h)) fuel hrun)
  | load prog data => exact .inr ⟨prog, data, rfl⟩
  | reset => exact .inl rfl

/-- Settles O24: the transitions of R72, each from the operation that makes it. -/
theorem controlStateMovesAsTheSpecSays : Obligations.ControlStateMovesAsTheSpecSays := by
  unfold Obligations.ControlStateMovesAsTheSpecSays
  refine ⟨step_control_of_halt, ?_, step_control_run, State.load_control, fun _ => rfl, State.apply_of_faulted, ?_⟩
  · rintro s hs ⟨t, ht⟩
    obtain ⟨k, hk⟩ := s.control_eq_fault_iff.mp hs
    cases (step_of_faulted s k hk).symm.trans ht
  · intro s op hs h
    cases hc : s.control with
    | run => exact absurd hc hs
    | halt => exact (s.apply_control_run_of_halt op hc h).imp_right fun hload => ⟨rfl, hload⟩
    | fault =>
      by_cases hop : op = .reset
      · exact .inl hop
      · rw [s.apply_of_faulted op hc hop] at h
        exact absurd h hs

end Sys2Proof.Machine
end

section
/-!
The effect of the arithmetic, logic, shift, compare and memory instructions (43_arithmetic.md, 44_logic_and_ternary.md,
46_memory_access.md), the jumps after a compare (45_control_transfer.md R119), and a load after a store
(20_memory.md section 4).
-/

namespace Sys2Proof.Machine

open Sys2Proof

/-! ### The shifts, and the ALU on trits -/

@[simp] theorem alu_shl3 (a b : Int) : alu .shl3 a b = 3 * a := Int.mul_comm a 3

@[simp] theorem alu_shr3 (a b : Int) : alu .shr3 a b = Int.tdiv a 3 := rfl

/-- Settles O29: `SHR3` is the truncated quotient by 3, and 3 has the sign that keeps that of `a`. -/
theorem aluShiftsByOneTrit : Obligations.AluShiftsByOneTrit := by
  unfold Obligations.AluShiftsByOneTrit
  refine ⟨alu_shl3, ?_, by decide⟩
  intro a b
  rw [alu_shr3]
  exact ⟨Int.natAbs_tdiv a 3, fun h => tdiv_nonneg_of_mul_nonneg a 3 (by omega),
    fun h => tdiv_nonpos_of_mul_nonpos a 3 (by omega)⟩

theorem mem_trits_iff (a : Int) : a ∈ [(-1 : Int), 0, 1] ↔ -1 ≤ a ∧ a ≤ 1 := by
  simp only [List.mem_cons, List.not_mem_nil, or_false]
  omega

/-- Settles O30: there are nine pairs of trits. -/
theorem aluOnTritsStaysInTheTrits : Obligations.AluOnTritsStaysInTheTrits := by
  unfold Obligations.AluOnTritsStaysInTheTrits
  have hpairs : ∀ a ∈ [(-1 : Int), 0, 1], ∀ b ∈ [(-1 : Int), 0, 1],
      ∀ f ∈ [AluFn.min, .max, .neg, .sign, .abs, .cmp3, .mul, .div, .shr3], -1 ≤ alu f a b ∧ alu f a b ≤ 1 := by
    decide
  have hshr : ∀ a ∈ [(-1 : Int), 0, 1], Int.tdiv a 3 = 0 := by decide
  refine ⟨?_, ?_, by decide⟩
  · intro a b ha ha' hb hb'
    exact hpairs a ((mem_trits_iff a).mpr ⟨ha, ha'⟩) b ((mem_trits_iff b).mpr ⟨hb, hb'⟩)
  · intro a b ha ha'
    rw [alu_shr3]
    exact hshr a ((mem_trits_iff a).mpr ⟨ha, ha'⟩)

/-! ### The effect of a two-operand instruction -/

/-- A two-operand ALU instruction whose function answers `v` completes with `v` in `rd` and changes nothing else, if the
word holds `v`. -/
theorem aluTwo_writesOnlyReg (f : AluFn) (s : State) (rd : Reg) (src : Src) (v : Int)
    (hv : alu f (s.regs.get rd) (s.srcVal src) = v) (hfit : fits s.params v = true) :
    ∃ t, aluTwo f rd src s = .next t ∧ s.writesOnlyReg t rd v := by
  subst hv
  exact finishReg_writesOnlyReg s rd _ hfit

/-- Settles O35: the ALU functions are the exact operations. -/
theorem addSubMulWriteTheExactResult : Obligations.AddSubMulWriteTheExactResult := by
  unfold Obligations.AddSubMulWriteTheExactResult
  refine ⟨?_, ?_, ?_, ?_, ?_, ?_⟩
  · exact fun s rd rs => aluTwo_writesOnlyReg .add s rd (.reg rs) _ (alu_add _ _)
  · exact fun s rd n => aluTwo_writesOnlyReg .add s rd (.imm n) _ (alu_add _ _)
  · exact fun s rd rs => aluTwo_writesOnlyReg .sub s rd (.reg rs) _ (alu_sub _ _)
  · exact fun s rd n => aluTwo_writesOnlyReg .sub s rd (.imm n) _ (alu_sub _ _)
  · exact fun s rd rs => aluTwo_writesOnlyReg .mul s rd (.reg rs) _ (alu_mul _ _)
  · exact fun s rd n => aluTwo_writesOnlyReg .mul s rd (.imm n) _ (alu_mul _ _)

/-- The quotient as R106 writes it. -/
theorem alu_div_eq_ite (a b : Int) : alu .div a b = if b = 0 then 0 else Int.tdiv a b := by
  split
  · next hzero => rw [alu_div, hzero, Int.tdiv_zero]
  · exact alu_div a b

/-- Settles O36: a zero divisor gives 0, any other the truncated quotient. -/
theorem divWritesTheTruncatedQuotient : Obligations.DivWritesTheTruncatedQuotient := by
  unfold Obligations.DivWritesTheTruncatedQuotient
  exact ⟨fun s rd rs => aluTwo_writesOnlyReg .div s rd (.reg rs) _ (alu_div_eq_ite _ _),
    fun s rd n => aluTwo_writesOnlyReg .div s rd (.imm n) _ (alu_div_eq_ite _ _)⟩

/-- Settles O37: the ALU functions are the minimum and the maximum. -/
theorem andOrWriteMinimumAndMaximum : Obligations.AndOrWriteMinimumAndMaximum := by
  unfold Obligations.AndOrWriteMinimumAndMaximum
  refine ⟨?_, ?_, ?_, ?_⟩
  · exact fun s rd rs => aluTwo_writesOnlyReg .min s rd (.reg rs) _ (alu_min _ _)
  · exact fun s rd n => aluTwo_writesOnlyReg .min s rd (.imm n) _ (alu_min _ _)
  · exact fun s rd rs => aluTwo_writesOnlyReg .max s rd (.reg rs) _ (alu_max _ _)
  · exact fun s rd n => aluTwo_writesOnlyReg .max s rd (.imm n) _ (alu_max _ _)

/-- Settles O40: the factor and the divisor are 3. -/
theorem shlAndShrShiftOneTrit : Obligations.ShlAndShrShiftOneTrit := by
  unfold Obligations.ShlAndShrShiftOneTrit
  exact ⟨fun s rd => aluOne_writesOnlyReg .shl3 s rd _ (alu_shl3 _ _),
    fun s rd => aluOne_writesOnlyReg .shr3 s rd _ (alu_shr3 _ _)⟩

/-- Settles O41: the three-way compare is the sign of the difference. -/
theorem cmpWritesTheSignOfTheDifference : Obligations.CmpWritesTheSignOfTheDifference := by
  unfold Obligations.CmpWritesTheSignOfTheDifference
  exact ⟨fun s rd rs => aluTwo_writesOnlyReg .cmp3 s rd (.reg rs) _ (alu_cmp3 _ _),
    fun s rd n => aluTwo_writesOnlyReg .cmp3 s rd (.imm n) _ (alu_cmp3 _ _)⟩

/-! ### The jumps after a compare -/

/-- A register write that leaves no fault has taken place. -/
theorem finishReg_of_unfaulted (s t : State) (rd : Reg) (v : Int) (h : finishReg s rd v = .next t)
    (ht : t.fault = none) : t = s.advance.setReg rd v := by
  rcases finishReg_cases s t rd v h with ⟨-, hset⟩ | ⟨-, rfl⟩
  · exact hset
  · cases ht

/-- A cell write that leaves no fault has taken place. -/
theorem finishCell_of_unfaulted (s t : State) (addr v : Int) (h : finishCell s addr v = .next t)
    (ht : t.fault = none) : t = s.advance.writeCell addr v := by
  rcases finishCell_cases s t addr v h with ⟨-, hset⟩ | ⟨-, rfl⟩
  · exact hset
  · cases ht

theorem cmp_result (s u : State) (rd : Reg) (src : Src) (h : aluTwo .cmp3 rd src s = .next u) (hu : u.fault = none) :
    u.regs.get rd = Int.sign (s.regs.get rd - s.srcVal src) := by
  rw [finishReg_of_unfaulted s u rd _ h hu, ← alu_cmp3]
  exact Regs.get_set_same s.regs rd _

/-- The jumps on a register that holds the sign of `a - b` compare `a` with `b`. -/
theorem jumps_on_sign (u : State) (rd : Reg) (target a b : Int) (h : u.regs.get rd = Int.sign (a - b)) :
    exec (.jn rd target) u = .next (u.setPc (if a < b then target else u.pc + 1))
      ∧ exec (.jz rd target) u = .next (u.setPc (if a = b then target else u.pc + 1))
      ∧ exec (.jp rd target) u = .next (u.setPc (if b < a then target else u.pc + 1)) := by
  refine ⟨jumpIf_eq_setPc .negative rd target u _ ?_, jumpIf_eq_setPc .zero rd target u _ ?_,
    jumpIf_eq_setPc .positive rd target u _ ?_⟩
  · rw [condHolds_negative, h, Int.sign_neg_iff, sub_neg]
  · rw [condHolds_zero, h, Int.sign_eq_zero_iff_zero, sub_eq_zero]
  · rw [condHolds_positive, h, Int.sign_pos_iff, sub_pos]

/-- Settles O44: `CMP` leaves the sign of the difference in `rd`, and each jump tests that sign. -/
theorem jpAndTheSelectionAfterCmp : Obligations.JpAndTheSelectionAfterCmp := by
  unfold Obligations.JpAndTheSelectionAfterCmp
  refine ⟨encodeRegVal_eq_headerWith 19, ?_, ?_⟩
  · intro s rs target
    exact jumpIf_eq_setPc .positive rs target s _ (condHolds_positive _)
  · rintro s u rd target i x (⟨rs, rfl, rfl⟩ | rfl) h - hu
    · exact jumps_on_sign u rd target _ _ (cmp_result s u rd (.reg rs) h hu)
    · exact jumps_on_sign u rd target _ _ (cmp_result s u rd (.imm x) h hu)

/-! ### Loads and effective addresses -/

/-- Settles O45: both forms write the cell that their operand reaches before `rd` is written. -/
theorem ldReadsTheReducedCell : Obligations.LdReadsTheReducedCell := by
  unfold Obligations.LdReadsTheReducedCell
  exact ⟨fun s rd _ => finishReg_writesOnlyReg s rd _, fun s rd _ => finishReg_writesOnlyReg s rd _⟩

/-- What a register write leaves in the registers does not depend on data memory. -/
theorem finishReg_regs_of_dmem (s t u : State) (rd : Reg) (v : Int) (m : Memory Int) (ht : finishReg s rd v = .next t)
    (hu : finishReg { s with dmem := m } rd v = .next u) : u.regs = t.regs := by
  rcases finishReg_cases s t rd v ht with ⟨hfit, rfl⟩ | ⟨hfit, rfl⟩
  · cases (finishReg_of_fits { s with dmem := m } rd v hfit).symm.trans hu
    rfl
  · cases (finishReg_of_overflow { s with dmem := m } rd v hfit).symm.trans hu
    rfl

/-- Settles O47: `LEA` is the write of its address to `rd`, and the reduction is that of a later access. -/
theorem leaWritesTheUnreducedAddress : Obligations.LeaWritesTheUnreducedAddress := by
  unfold Obligations.LeaWritesTheUnreducedAddress
  refine ⟨encodeRegVal_eq_headerWith 22, ?_, ?_, ?_⟩
  · exact fun s rd a => finishReg_writesOnlyReg s rd a
  · exact fun s t u rd a m => finishReg_regs_of_dmem s t u rd a m
  · intro s t rd a hfit ht
    obtain ⟨u, hu, hval, -, -, -, -, hparams, -⟩ := finishReg_writesOnlyReg s rd a hfit
    obtain rfl : u = t := Host.Outcome.next.inj (hu.symm.trans ht)
    rw [State.effAddr, hval, ← hparams]
    rfl

/-! ### The cell an address reaches -/

theorem State.cast_cellIndex (s : State) (addr : Int) (h : 1 ≤ s.params.dcap) :
    (s.cellIndex addr : Int) = addr % s.params.dcap :=
  Int.toNat_of_nonneg (Int.emod_nonneg addr (by omega))

/-- Settles O50: the cell index is the residue, so they differ by a multiple of `DCAP`. -/
theorem addressReductionIsTheLeastResidue : Obligations.AddressReductionIsTheLeastResidue := by
  unfold Obligations.AddressReductionIsTheLeastResidue
  refine ⟨?_, ?_⟩
  · intro s addr h
    refine ⟨s.cellIndex_lt addr h, ?_⟩
    rw [s.cast_cellIndex addr h]
    exact Int.dvd_self_sub_emod
  · intro s h
    simp only [State.cellIndex, h]
    decide

/-- Two addresses reach one cell where they are congruent modulo `DCAP` (20_memory.md R30). -/
theorem State.cellIndex_eq_iff (s : State) (a b : Int) (h : 1 ≤ s.params.dcap) :
    s.cellIndex b = s.cellIndex a ↔ (s.params.dcap : Int) ∣ b - a := by
  rw [← Int.natCast_inj, s.cast_cellIndex a h, s.cast_cellIndex b h, Int.emod_eq_emod_iff_emod_sub_eq_zero,
    Int.dvd_iff_emod_eq_zero]

/-! ### A load after a store -/

/-- A load that leaves no fault has put the cell of its operand into `rd`, on a machine that was not faulted. -/
theorem loadFrom_of_unfaulted (rd : Reg) (addr : Addr) (t u : State) (h : loadFrom rd addr t = .next u)
    (hu : u.fault = none) : t.fault = none ∧ u.regs.get rd = t.readCell (t.effAddr addr) := by
  obtain rfl := finishReg_of_unfaulted t u rd _ h hu
  exact ⟨hu, Regs.get_set_same t.regs rd _⟩

/-- What a load after a store reads: the cell of its operand in the state after the store, whose registers are those
before it. -/
theorem load_after_store (s t u : State) (rs rd : Reg) (a b : Addr) (ht : storeTo rs a s = .next t)
    (hu : loadFrom rd b t = .next u) (hf : u.fault = none) :
    u.regs.get rd = (s.advance.writeCell (s.effAddr a) (s.regs.get rs)).readCell (s.effAddr b) := by
  obtain ⟨htf, hval⟩ := loadFrom_of_unfaulted rd b t u hu hf
  obtain rfl := finishCell_of_unfaulted s t _ _ ht htf
  exact hval

/-- Settles O52: the store wrote one cell, which is the one the load reads exactly where the addresses are congruent. -/
theorem loadAfterStoreReturnsTheStoredValue : Obligations.LoadAfterStoreReturnsTheStoredValue := by
  unfold Obligations.LoadAfterStoreReturnsTheStoredValue
  refine ⟨?_, ?_⟩
  · intro s t u rs rd a b hinv _ ht hu hf
    have hw := s.dmem_wf_of_inv hinv
    obtain ⟨⟨-, hdcap⟩, -⟩ := s.inv_iff.mp hinv
    rw [load_after_store s t u rs rd (.direct a) (.direct b) ht hu hf]
    split
    · next hdvd => exact s.advance.readCell_writeCell_same a b _ hw ((s.cellIndex_eq_iff a b hdcap).mpr hdvd)
    · next hndvd =>
      exact s.advance.readCell_writeCell_other a b _ hw fun hsame => hndvd ((s.cellIndex_eq_iff a b hdcap).mp hsame)
  · intro s t u rs rd ri hinv _ ht hu hf
    rw [load_after_store s t u rs rd (.indirect ri) (.indirect ri) ht hu hf]
    exact s.advance.readCell_writeCell_same _ _ _ (s.dmem_wf_of_inv hinv) rfl

end Sys2Proof.Machine
end

section
/-!
The host's load (70_reset_and_hazards.md R148): one equation for each of its tests, and what an installed list reads as.
-/

namespace Sys2Proof.Machine

open Sys2Proof

/-- The images do not fit where one value of either does not. -/
theorem imagesFit_eq_false_iff (p : Params) (prog : List Slot) (data : List Int) :
    imagesFit p prog data = false ↔ (∃ sl ∈ prog, fits p sl.val = false) ∨ ∃ v ∈ data, fits p v = false := by
  rw [← Bool.not_eq_true, imagesFit_iff, not_and_or]
  simp

theorem State.load_of_programTooLarge (s : State) (prog : List Slot) (data : List Int) (hf : s.fault = none)
    (hprog : s.params.pcap < prog.length) : s.load prog data = s.raiseFault (.programTooLarge prog.length) := by
  simp [State.load, hf, hprog]

theorem State.load_of_dataImageTooLarge (s : State) (prog : List Slot) (data : List Int) (hf : s.fault = none)
    (hprog : prog.length ≤ s.params.pcap) (hdata : s.params.dcap < data.length) :
    s.load prog data = s.raiseFault (.dataImageTooLarge data.length) := by
  simp [State.load, hf, hprog.not_gt, hdata]

theorem State.load_of_fits (s : State) (prog : List Slot) (data : List Int) (hf : s.fault = none)
    (hprog : prog.length ≤ s.params.pcap) (hdata : data.length ≤ s.params.dcap)
    (hfit : imagesFit s.params prog data = true) : s.load prog data = s.install prog data := by
  simp [State.load, hf, hprog.not_gt, hdata.not_gt, hfit]

theorem State.load_of_overflow (s : State) (prog : List Slot) (data : List Int) (hf : s.fault = none)
    (hprog : prog.length ≤ s.params.pcap) (hdata : data.length ≤ s.params.dcap)
    (hfit : imagesFit s.params prog data = false) : s.load prog data = s.raiseFault (.wordOverflow s.pc) := by
  simp [State.load, hf, hprog.not_gt, hdata.not_gt, hfit]

/-- Settles O54: the load installs, and an installed list is read back from index 0. -/
theorem loadInstallsProgramAndData : Obligations.LoadInstallsProgramAndData := by
  unfold Obligations.LoadInstallsProgramAndData
  intro s prog data hf hprog hdata hslots hvals
  rw [s.load_of_fits prog data hf hprog hdata ((imagesFit_iff _ _ _).mpr ⟨hslots, hvals⟩)]
  exact ⟨fun k => memRead_memOfList Slot.empty 0 k prog, fun k => memRead_memOfList 0 0 k data, rfl, rfl, rfl, hf, rfl⟩

/-- Settles O55: the tests of a load in their order, each before anything is installed. -/
theorem loadTooLargeFaultsAndInstallsNothing : Obligations.LoadTooLargeFaultsAndInstallsNothing := by
  unfold Obligations.LoadTooLargeFaultsAndInstallsNothing
  intro s prog data hf
  exact ⟨s.load_of_programTooLarge prog data hf, s.load_of_dataImageTooLarge prog data hf, fun hprog hdata hover =>
    s.load_of_overflow prog data hf hprog hdata ((imagesFit_eq_false_iff _ _ _).mpr hover)⟩

end Sys2Proof.Machine
end

section
/-!
The word codec (47_word_codec.md). The encoder takes digits from the low end and the decoder sums from the high end;
both are brought to the low end, where a sequence is a shorter one with a last trit: its value is three times the value
of the shorter one plus that trit. The round trips follow from one bound and one congruence.
-/

namespace Sys2Proof.Machine

open Sys2Proof

/-! ### The low digit -/

/-- The digit of R125 is the one of `-1, 0, 1` that is congruent to the value. -/
theorem tritValue_lowTrit (v : Int) : tritValue (lowTrit v) = (v + 1) % 3 - 1 := by
  have hdef : lowTrit v = if (v + 1) % 3 = 0 then .neg else if (v + 1) % 3 = 1 then .zero else .pos := rfl
  rw [hdef]
  split
  · next h0 => rw [h0]; rfl
  · split
    · next h1 => rw [h1]; rfl
    · have h2 : (v + 1) % 3 = 2 := by omega
      rw [h2]
      rfl

theorem three_dvd_sub_lowTrit (v : Int) : (3 : Int) ∣ v - tritValue (lowTrit v) := by
  rw [tritValue_lowTrit]
  omega

theorem tritValue_bounds (t : Trit) : -1 ≤ tritValue t ∧ tritValue t ≤ 1 := by
  cases t <;> decide

theorem tritOf_tritValue (t : Trit) : tritOf (tritValue t) = some t := by
  cases t <;> rfl

theorem tritValue_injective (t t' : Trit) (h : tritValue t = tritValue t') : t = t' := by
  have htrit := congrArg tritOf h
  rw [tritOf_tritValue, tritOf_tritValue] at htrit
  exact Option.some.inj htrit

/-- The low digit of a value that ends in the trit `t` is `t`. -/
theorem lowTrit_three_mul_add (x : Int) (t : Trit) : lowTrit (3 * x + tritValue t) = t := by
  apply tritValue_injective
  obtain ⟨hlow, hhigh⟩ := tritValue_bounds t
  rw [tritValue_lowTrit]
  omega

/-! ### Encoder and decoder at the low end -/

theorem encodeLoop_eq_append (w : Nat) (v : Int) (out : List Trit) : encodeLoop w v out = toTrits v w ++ out := by
  unfold toTrits
  induction w generalizing v out with
  | zero => rfl
  | succ w ih =>
    rw [encodeLoop, encodeLoop, ih, ih _ [lowTrit v], List.append_assoc]
    rfl

theorem toTrits_succ (w : Nat) (v : Int) :
    toTrits v (w + 1) = toTrits ((v - tritValue (lowTrit v)) / 3) w ++ [lowTrit v] := by
  rw [toTrits, encodeLoop, encodeLoop_eq_append]

@[simp] theorem toTrits_length (w : Nat) (v : Int) : (toTrits v w).length = w := by
  induction w generalizing v with
  | zero => rfl
  | succ w ih => rw [toTrits_succ, List.length_append, ih, List.length_singleton]

theorem ofTrits_append_singleton (ts : List Trit) (t : Trit) : ofTrits (ts ++ [t]) = 3 * ofTrits ts + tritValue t := by
  induction ts with
  | nil => simp [ofTrits]
  | cons a rest ih =>
    rw [List.cons_append, ofTrits, ih, ofTrits, List.length_append, List.length_singleton, pow_succ]
    ring

/-! ### The bound and the congruence -/

/-- The value of a sequence of trits is in the range of its length (R127). -/
theorem two_mul_natAbs_ofTrits_lt (ts : List Trit) : 2 * (ofTrits ts).natAbs < 3 ^ ts.length := by
  induction ts using List.reverseRecOn with
  | nil => decide
  | append_singleton ts t ih =>
    obtain ⟨hlow, hhigh⟩ := tritValue_bounds t
    rw [ofTrits_append_singleton, List.length_append, List.length_singleton, pow_succ]
    omega

/-- The encoding keeps the value modulo `3 ^ w` (R128). -/
theorem pow_dvd_sub_ofTrits_toTrits (w : Nat) (v : Int) : (3 ^ w : Int) ∣ v - ofTrits (toTrits v w) := by
  induction w generalizing v with
  | zero => simp
  | succ w ih =>
    rw [toTrits_succ, ofTrits_append_singleton, pow_succ]
    obtain ⟨q, hq⟩ := three_dvd_sub_lowTrit v
    rw [hq, Int.mul_ediv_cancel_left q (by decide : (3 : Int) ≠ 0)]
    have hsplit : v - (3 * ofTrits (toTrits q w) + tritValue (lowTrit v)) = (q - ofTrits (toTrits q w)) * 3 := by
      linear_combination hq
    rw [hsplit]
    exact Int.mul_dvd_mul (ih q) (Int.dvd_refl 3)

/-- A sequence is the encoding of its value. -/
theorem toTrits_ofTrits (ts : List Trit) : toTrits (ofTrits ts) ts.length = ts := by
  induction ts using List.reverseRecOn with
  | nil => rfl
  | append_singleton ts t ih =>
    have hrest : (3 * ofTrits ts + tritValue t - tritValue t) / 3 = ofTrits ts := by omega
    rw [List.length_append, List.length_singleton, toTrits_succ, ofTrits_append_singleton, lowTrit_three_mul_add, hrest,
      ih]

/-- Two values in the range of `w` trits that are congruent modulo `3 ^ w` are equal. -/
theorem eq_of_pow_dvd_sub (w : Nat) (x y : Int) (hx : 2 * x.natAbs < 3 ^ w) (hy : 2 * y.natAbs < 3 ^ w)
    (h : (3 ^ w : Int) ∣ x - y) : x = y := by
  have hsmall : (x - y).natAbs < ((3 : Int) ^ w).natAbs := by
    rw [Int.natAbs_pow]
    change (x - y).natAbs < 3 ^ w
    omega
  exact sub_eq_zero.mp (Int.eq_zero_of_dvd_of_natAbs_lt_natAbs h hsmall)

theorem two_mul_natAbs_ofTrits_toTrits_lt (w : Nat) (v : Int) : 2 * (ofTrits (toTrits v w)).natAbs < 3 ^ w := by
  simpa using two_mul_natAbs_ofTrits_lt (toTrits v w)

/-! ### The statements of 47_word_codec.md -/

/-- Settles O58: a value and the value of its encoding are congruent and both in range; a sequence is rebuilt from its
last trit. -/
theorem codecRoundTrips : Obligations.CodecRoundTrips := by
  unfold Obligations.CodecRoundTrips
  refine ⟨?_, toTrits_ofTrits, fun ts => Nat.le_sub_one_of_lt (two_mul_natAbs_ofTrits_lt ts)⟩
  intro w v hv
  have hv' : 2 * v.natAbs < 3 ^ w := Nat.lt_of_le_sub_one (Nat.pow_pos (by decide)) hv
  exact (eq_of_pow_dvd_sub w _ _ hv' (two_mul_natAbs_ofTrits_toTrits_lt w v) (pow_dvd_sub_ofTrits_toTrits w v)).symm

/-- Settles O59: congruent values have encodings of one value, and a sequence is the encoding of its value. -/
theorem codecWrapsToTheLowTrits : Obligations.CodecWrapsToTheLowTrits := by
  unfold Obligations.CodecWrapsToTheLowTrits
  refine ⟨fun w v => ⟨pow_dvd_sub_ofTrits_toTrits w v,
    Nat.le_sub_one_of_lt (two_mul_natAbs_ofTrits_toTrits_lt w v)⟩, ?_⟩
  intro w v v' h
  have hcongr : (3 ^ w : Int) ∣ ofTrits (toTrits v w) - ofTrits (toTrits v' w) := by
    have hsum : ofTrits (toTrits v w) - ofTrits (toTrits v' w) =
        (v - v') - (v - ofTrits (toTrits v w)) + (v' - ofTrits (toTrits v' w)) := by ring
    rw [hsum]
    exact Int.dvd_add (Int.dvd_sub h (pow_dvd_sub_ofTrits_toTrits w v)) (pow_dvd_sub_ofTrits_toTrits w v')
  have hvalue : ofTrits (toTrits v w) = ofTrits (toTrits v' w) :=
    eq_of_pow_dvd_sub w _ _ (two_mul_natAbs_ofTrits_toTrits_lt w v) (two_mul_natAbs_ofTrits_toTrits_lt w v') hcongr
  calc toTrits v w = toTrits (ofTrits (toTrits v w)) w := by simpa using (toTrits_ofTrits (toTrits v w)).symm
    _ = toTrits (ofTrits (toTrits v' w)) w := by rw [hvalue]
    _ = toTrits v' w := by simpa using toTrits_ofTrits (toTrits v' w)

/-- Settles O57: one turn of the encoder's loop. -/
theorem codecEncodesDigitByDigit : Obligations.CodecEncodesDigitByDigit := by
  unfold Obligations.CodecEncodesDigitByDigit
  exact ⟨toTrits_length, fun v => ⟨tritValue_lowTrit v, three_dvd_sub_lowTrit v⟩, toTrits_succ⟩

/-! ### The refusals -/

theorem readTrits_map_tritValue (ts : List Trit) : readTrits (ts.map tritValue) = .ok ts := by
  induction ts with
  | nil => rfl
  | cons t rest ih =>
    rw [List.map_cons, readTrits, tritOf_tritValue, ih]

theorem tritOf_eq_none (d : Int) (h : d < -1 ∨ 1 < d) : tritOf d = none := by
  have hneg : d ≠ -1 := by omega
  have hzero : d ≠ 0 := by omega
  have hpos : d ≠ 1 := by omega
  simp [tritOf, hneg, hzero, hpos]

/-- A sequence with an entry that is no trit is refused at its first such entry (R126). -/
theorem readTrits_of_not_trit (ds : List Int) (h : ∃ d ∈ ds, d < -1 ∨ 1 < d) :
    ∃ e, readTrits ds = .error (.codecNotATrit e) := by
  induction ds with
  | nil =>
    obtain ⟨d, hd, -⟩ := h
    cases hd
  | cons a rest ih =>
    cases ha : tritOf a with
    | none => exact ⟨a, by rw [readTrits, ha]⟩
    | some t =>
      have hrest : ∃ d ∈ rest, d < -1 ∨ 1 < d := by
        obtain ⟨d, hd, hout⟩ := h
        rcases List.mem_cons.mp hd with rfl | hmem
        · cases (tritOf_eq_none d hout).symm.trans ha
        · exact ⟨d, hmem, hout⟩
      obtain ⟨e, he⟩ := ih hrest
      exact ⟨e, by rw [readTrits, ha, he]⟩

/-- Settles O60: the sign of the width and the entries' being trits are all that is tested. -/
theorem codecAcceptsExactlyItsInputs : Obligations.CodecAcceptsExactlyItsInputs := by
  unfold Obligations.CodecAcceptsExactlyItsInputs
  refine ⟨?_, ?_, ?_, ?_⟩
  · intro v w
    rw [fromInteger, if_neg (Int.natCast_nonneg w).not_gt, Int.toNat_natCast]
  · intro v w hw
    rw [fromInteger, if_pos hw]
  · intro ts
    rw [toInteger, readTrits_map_tritValue]
  · intro ds h
    obtain ⟨e, he⟩ := readTrits_of_not_trit ds h
    exact ⟨e, by rw [toInteger, he]⟩

end Sys2Proof.Machine
end
